-- ==== Sys2Proof/Word.lean ====
section
/-! DEFINITION. The widths the block's registers and elements have (00_scope.md R6, 10_state.md R21). -/

namespace Sys2Proof

/-- Eight bits: a pitch, a sample, a channel, a sub-cycle count (R6). -/
abbrev Byte := BitVec 8

/-- Sixteen bits: a delay, a tick count, a cursor, a phase index (R6). -/
abbrev Half := BitVec 16

/-- The index `v` in 0..3 of a voice (10_state.md R22). -/
abbrev VoiceId := Fin 4

end Sys2Proof
end

