-- ==== Sys2Proof/Config.lean ====
section
/-! DEFINITION. The parameters of the block that an implementation fixes (00_scope.md R6), what makes a choice of
them admissible, and the spec's reference values. The configuration is data: `Machine.State` carries it in a field
that no step writes, so a statement about every state is one about every admissible configuration. -/

namespace Sys2Proof

/-- A read-only table of `n` elements of `w` bits (20_memory.md R60). -/
structure Rom (n w : Nat) where
  cells : List (BitVec w)
  full : cells.length = n
deriving DecidableEq, Repr

/-- `MemRead` of a table: element `i`, with no side effect (20_memory.md R67). -/
def Rom.read {n w : Nat} (r : Rom n w) (i : Fin n) : BitVec w :=
  r.cells[i.val]'(by rw [r.full]; exact i.isLt)

/-- The configuration parameters of 00_scope.md R6. -/
structure Params where
  /-- `SUBCYCLES`: strobes per sample period. -/
  subcycles : Byte
  /-- `MID`: the output midpoint. -/
  mid : Byte
  /-- `WAVE` (20_memory.md R62). -/
  wave : Rom 256 8
  /-- `FINT` (R63). -/
  fint : Rom 128 16
  /-- `FFRAC` (R63). -/
  ffrac : Rom 128 8
  /-- `VALID_CHANNELS`: the set, as the rising list of its members. -/
  validChannels : List Byte
deriving DecidableEq, Repr

/-- Each element is at most the next one (40_waveform_rom.md R101 (b)). -/
def nonDecreasing : List Byte → Bool
  | [] => true
  | [_] => true
  | a :: b :: rest => a.toNat ≤ b.toNat && nonDecreasing (b :: rest)

/-- Each element is below the next one: the one list that stands for a set of channels. -/
def strictlyRising : List Byte → Bool
  | [] => true
  | [_] => true
  | a :: b :: rest => a.toNat < b.toNat && strictlyRising (b :: rest)

/-- The half amplitude `WAVE[255]` (40_waveform_rom.md R101). -/
def Params.peak (p : Params) : Byte := p.wave.read 255

/-- The constraints of 00_scope.md R6 and 40_waveform_rom.md R101 (a) to (d); the widths of `FINT` and `FFRAC`
(41_frequency_rom.md R112) are in their types. -/
def Params.admissible (p : Params) : Bool :=
  2 ≤ p.subcycles.toNat &&
  p.wave.read 0 == 0#8 &&
  nonDecreasing p.wave.cells &&
  p.peak.toNat ≤ p.mid.toNat &&
  p.mid.toNat + p.peak.toNat ≤ 255 &&
  1 ≤ p.peak.toNat &&
  strictlyRising p.validChannels

/-- A configuration: admissible parameters. An image that breaks R101 has no configuration
(93_implementation_defined.md U11). -/
structure Config extends Params where
  ok : toParams.admissible = true
deriving DecidableEq, Repr

/-- `OUT_MAX` = `MID` + `WAVE[255]` (40_waveform_rom.md R102). -/
def Config.outMax (c : Config) : Nat := c.mid.toNat + c.peak.toNat

/-- `OUT_MIN` = `MID` - `WAVE[255]` (40_waveform_rom.md R102). -/
def Config.outMin (c : Config) : Nat := c.mid.toNat - c.peak.toNat

/-- The reference `WAVE` image (R106): row `i`, column `k` is `WAVE[i + k]`. -/
def referenceWave : List (BitVec 8) :=
  [0, 1, 2, 2, 3, 4, 5, 5, 6, 7, 8, 9, 9, 10, 11, 12] ++
  [12, 13, 14, 15, 16, 16, 17, 18, 19, 19, 20, 21, 22, 23, 23, 24] ++
  [25, 26, 26, 27, 28, 29, 29, 30, 31, 32, 32, 33, 34, 35, 36, 36] ++
  [37, 38, 39, 39, 40, 41, 41, 42, 43, 44, 44, 45, 46, 47, 47, 48] ++
  [49, 50, 50, 51, 52, 52, 53, 54, 54, 55, 56, 57, 57, 58, 59, 59] ++
  [60, 61, 61, 62, 63, 63, 64, 65, 66, 66, 67, 68, 68, 69, 69, 70] ++
  [71, 71, 72, 73, 73, 74, 75, 75, 76, 77, 77, 78, 78, 79, 80, 80] ++
  [81, 81, 82, 83, 83, 84, 84, 85, 86, 86, 87, 87, 88, 88, 89, 90] ++
  [90, 91, 91, 92, 92, 93, 93, 94, 94, 95, 95, 96, 96, 97, 97, 98] ++
  [98, 99, 99, 100, 100, 101, 101, 102, 102, 103, 103, 104, 104, 105, 105, 105] ++
  [106, 106, 107, 107, 108, 108, 108, 109, 109, 110, 110, 110, 111, 111, 112, 112] ++
  [112, 113, 113, 113, 114, 114, 114, 115, 115, 115, 116, 116, 116, 117, 117, 117] ++
  [118, 118, 118, 118, 119, 119, 119, 120, 120, 120, 120, 121, 121, 121, 121, 121] ++
  [122, 122, 122, 122, 123, 123, 123, 123, 123, 124, 124, 124, 124, 124, 124, 125] ++
  [125, 125, 125, 125, 125, 125, 125, 126, 126, 126, 126, 126, 126, 126, 126, 126] ++
  [126, 127, 127, 127, 127, 127, 127, 127, 127, 127, 127, 127, 127, 127, 127, 127]

/-- The reference `FINT` image (R113), sixteen pitches a row. -/
def referenceFint : List (BitVec 16) :=
  [0, 0, 0, 0, 0, 0, 0, 1, 1, 1, 1, 1, 1, 1, 1, 1] ++
  [1, 1, 1, 2, 2, 2, 2, 2, 2, 2, 3, 3, 3, 3, 3, 4] ++
  [4, 4, 4, 5, 5, 5, 6, 6, 6, 7, 7, 8, 8, 9, 9, 10] ++
  [10, 11, 12, 12, 13, 14, 15, 16, 17, 18, 19, 20, 21, 22, 24, 25] ++
  [27, 28, 30, 32, 34, 36, 38, 40, 42, 45, 48, 50, 54, 57, 60, 64] ++
  [68, 72, 76, 80, 85, 90, 96, 101, 108, 114, 121, 128, 136, 144, 152, 161] ++
  [171, 181, 192, 203, 216, 228, 242, 256, 272, 288, 305, 323, 342, 363, 384, 407] ++
  [432, 457, 484, 513, 544, 576, 611, 647, 685, 726, 769, 815, 864, 915, 969, 1027]

/-- The reference `FFRAC` image (R113), sixteen pitches a row. -/
def referenceFfrac : List (BitVec 8) :=
  [171, 182, 192, 204, 216, 229, 242, 1, 16, 32, 50, 68, 87, 107, 129, 152] ++
  [176, 202, 229, 2, 32, 65, 99, 135, 174, 215, 2, 48, 96, 147, 202, 4] ++
  [65, 129, 198, 15, 92, 173, 4, 95, 192, 39, 148, 7, 129, 3, 140, 29] ++
  [183, 90, 7, 190, 128, 78, 40, 14, 3, 6, 24, 59, 111, 181, 15, 125] ++
  [1, 156, 79, 29, 6, 11, 48, 117, 221, 106, 29, 250, 2, 56, 159, 57] ++
  [11, 23, 96, 235, 187, 212, 58, 243, 3, 111, 61, 115, 22, 46, 193, 214] ++
  [117, 168, 117, 230, 6, 223, 123, 230, 45, 92, 129, 172, 235, 79, 234, 205] ++
  [13, 190, 246, 204, 89, 184, 3, 88, 214, 158, 211, 154, 25, 123, 235, 152]

/-- The reference parameters of 00_scope.md R6. -/
def Params.reference : Params where
  subcycles := 5
  mid := 128
  wave := ⟨referenceWave, by decide +kernel⟩
  fint := ⟨referenceFint, by decide +kernel⟩
  ffrac := ⟨referenceFfrac, by decide +kernel⟩
  validChannels := [0]

/-- The reference configuration. DESIGN CHOICE (log 1): the machine after reset carries it. -/
def Config.reference : Config := { toParams := Params.reference, ok := by decide +kernel }

end Sys2Proof
end

