-- ==== Sys2Proof/Syntax.lean ====
section
/-! DEFINITION. Track events, tracks, track bindings, and the instructions of spec/opcode_table.json. -/

namespace Sys2Proof

/-- One event of a track: the pair held at one index of `TRKP[v]` and `TRKD[v]` (30_encoding.md R81). -/
structure Event where
  pitch : Byte
  delay : Half
deriving DecidableEq, Repr

/-- A Track: an immutable list of events whose number fits the 16-bit event count (10_state.md R25, R27,
20_memory.md R61). Element `i` of the list is element `i` of both parallel arrays. -/
structure Track where
  events : List Event
  fits : events.length < 65536
deriving DecidableEq, Repr

/-- The track with no event (43_track_sequencer.md R134). -/
def Track.empty : Track := ⟨[], by decide⟩

/-- The track bindings presented beside a command word, one for each voice port (00_scope.md R10). -/
structure Bindings where
  t0 : Track
  t1 : Track
  t2 : Track
  t3 : Track
deriving DecidableEq, Repr

/-- Where an instruction word comes from; this alone decides its format (30_encoding.md R80): the track of a
voice (format EV), the command port with the bindings presented there (format CW, R87), the strobe pins
(format SV). -/
inductive Source where
  | track (v : VoiceId)
  | command (tracks : Bindings)
  | strobe
deriving DecidableEq, Repr

/-- The instructions, one constructor for each row of the opcode table (00_scope.md R3). An event carries the
voice whose track it comes from, and `play` carries its list of tracks (30_encoding.md R87): these operands stand
beside the word, not in it. -/
inductive Instr where
  /-- `NOTE pn, delay` (43_track_sequencer.md R131). -/
  | note (v : VoiceId) (pn : BitVec 7) (delay : Half)
  /-- `REST delay` (R132). -/
  | rest (v : VoiceId) (delay : Half)
  /-- `RSVD pitch, delay` (R133). -/
  | rsvd (v : VoiceId) (pitch : Byte) (delay : Half)
  /-- `INIT chan` (46_control_commands.md R172). -/
  | init (chan : Byte)
  /-- `PLAY tracks, count, spt` (R173). -/
  | play (tracks : List Track) (count : Byte) (spt : Half)
  /-- `STOP` (R174). -/
  | stop
  /-- `ISPLAYING` (R175). -/
  | isPlaying
  /-- `INVOKE` (45_scheduler.md R160). -/
  | invoke
  /-- `RESET` (70_reset_and_hazards.md R200). -/
  | reset
deriving DecidableEq, Repr

end Sys2Proof
end

