-- ==== Sys2Proof/Machine/State.lean ====
section
/-! DEFINITION. The state of the machine, its stops, and its reset. `Block` holds exactly the registers of
10_state.md R20; `State` adds the configuration and the model's own fields for what comes in and what has gone out. -/

namespace Sys2Proof.Machine

/-- The sequencer state (10_state.md R26). The two-bit encoding 3 is never written; the model has no such value
(93_implementation_defined.md U9). -/
inductive SeqState where
  | priming
  | playing
  | finished
deriving DecidableEq, Repr

/-- The registers of one voice (10_state.md R20, R23 to R30). -/
structure Voice where
  seqState : SeqState
  currentPitch : Byte
  remainingTicks : Half
  eventCursor : Half
  eventCount : Half
  phaseIndex : Half
  phaseFraction : Byte
  track : Option Track
deriving DecidableEq, Repr

/-- The four voices (10_state.md R22). -/
structure VoiceFile where
  v0 : Voice
  v1 : Voice
  v2 : Voice
  v3 : Voice
deriving DecidableEq, Repr

/-- The registers of the block: exactly the state 10_state.md R20 lists. -/
structure Block where
  enabled : Bool
  channel : Byte
  /-- R33: three bits that hold 0..4 only (93_implementation_defined.md U9). -/
  trackCount : Fin 5
  samplesPerTick : Half
  subCycleCounter : Byte
  sampleCounter : Half
  bufferedSample : Byte
  voices : VoiceFile
deriving DecidableEq, Repr

/-- A command presented at the command port with its track bindings (00_scope.md R10, 30_encoding.md R86, R87). -/
structure Command where
  word : BitVec 32
  tracks : Bindings
deriving DecidableEq, Repr

/-- The input pins in one clock cycle: the strobe vector, and the command if `cmd_valid` is 1 (00_scope.md R10,
30_encoding.md R89). -/
structure PortSample where
  sv : BitVec 2
  cmd : Option Command
deriving DecidableEq, Repr

/-- One write to `OUT` as it is observed: the number of the `INVOKE` that wrote it (00_scope.md R9), the byte, and
the channel driven beside it (20_memory.md R64). -/
structure OutWrite where
  invocation : Nat
  data : Byte
  channel : Byte
deriving DecidableEq, Repr

/-- The machine: the configuration, which no step writes; the block's registers; and the model's own fields (logs 1,
2 and 4). -/
structure State where
  /-- The ROMs and parameters (00_scope.md R6): constant. -/
  config : Config
  block : Block
  /-- The port samples still to come, oldest first (00_scope.md R8). -/
  input : List PortSample
  /-- How many `INVOKE` events there have been (00_scope.md R9). -/
  invocations : Nat
  /-- The bytes written to `OUT`, oldest first (00_scope.md R9). -/
  out : List OutWrite
  /-- The results of `ISPLAYING`, oldest first (00_scope.md R9). -/
  results : List Bool
deriving DecidableEq, Repr

/-- How the model stops. The hardware raises nothing (60_exceptions.md R185). -/
inductive Fault where
  /-- A read of `TRKP[v]` or `TRKD[v]` at an index that names no element of the track bound to voice `v`. Raised by
  the Priming tick and by `Consume`. No rule forms such a read (20_memory.md R61), so it is safe: the model stops in
  states the hardware does not reach. -/
  | noTrackElement (v : VoiceId) (index : Half)
deriving DecidableEq, Repr

/-- Why the model has no meaning for an instruction. -/
inductive Refusal where
  /-- `exec`'s arm for an instruction without a meaning. Safe. No arm answers it: every instruction has its
  meaning. -/
  | notModelled (mnemonic : String)
deriving DecidableEq, Repr

/-- The pause sentinel `PAUSE` (00_scope.md R6). -/
abbrev pause : Byte := 0xFF#8

/-- A voice outside a session, as `RESET` and `StopClear` leave it (46_control_commands.md R171). -/
def Voice.cleared : Voice where
  seqState := .finished
  currentPitch := pause
  remainingTicks := 0
  eventCursor := 0
  eventCount := 0
  phaseIndex := 0
  phaseFraction := 0
  track := none

/-- Four cleared voices. -/
def VoiceFile.cleared : VoiceFile := ⟨Voice.cleared, Voice.cleared, Voice.cleared, Voice.cleared⟩

/-- The registers after `RESET` (70_reset_and_hazards.md R200). -/
def Block.atReset (c : Config) : Block where
  enabled := false
  channel := 0
  trackCount := 0
  samplesPerTick := 0
  subCycleCounter := c.subcycles
  sampleCounter := 0
  bufferedSample := c.mid
  voices := VoiceFile.cleared

/-- The machine right after reset (70_reset_and_hazards.md R200), with the reference configuration (log 1), nothing
presented (log 2) and nothing observed (log 4). -/
def State.reset : State where
  config := Config.reference
  block := Block.atReset Config.reference
  input := []
  invocations := 0
  out := []
  results := []

end Sys2Proof.Machine
end

