-- ==== Sys2Proof/Machine/Ops.lean ====
section
/-! DEFINITION. The named operations over the voice file, the registers and the sink. There is no operation that
takes an exception and none that returns from one: the hardware raises none, saves nothing on `INVOKE` and restores
nothing (60_exceptions.md R185, R189, R190). -/

namespace Sys2Proof.Machine

/-- Register file read: the registers of voice `v` (10_state.md R22). -/
def VoiceFile.get (f : VoiceFile) (v : VoiceId) : Voice :=
  match v with
  | 0 => f.v0
  | 1 => f.v1
  | 2 => f.v2
  | 3 => f.v3

/-- Register file write: the registers of voice `v`, no other voice's (10_state.md R22). -/
def VoiceFile.set (f : VoiceFile) (v : VoiceId) (vc : Voice) : VoiceFile :=
  match v with
  | 0 => { f with v0 := vc }
  | 1 => { f with v1 := vc }
  | 2 => { f with v2 := vc }
  | 3 => { f with v3 := vc }

/-- Voice `v` of a block. -/
def Block.voice (b : Block) (v : VoiceId) : Voice := b.voices.get v

/-- A block with voice `v` replaced. -/
def Block.setVoice (b : Block) (v : VoiceId) (vc : Voice) : Block := { b with voices := b.voices.set v vc }

/-- A state with voice `v` replaced. -/
def State.setVoice (s : State) (v : VoiceId) (vc : Voice) : State := { s with block := s.block.setVoice v vc }

/-- The voices 0 .. `trackCount` - 1, ascending (00_scope.md R13, 45_scheduler.md R163). -/
def activeVoices (n : Fin 5) : List VoiceId :=
  match n with
  | 0 => []
  | 1 => [0]
  | 2 => [0, 1]
  | 3 => [0, 1, 2]
  | 4 => [0, 1, 2, 3]

/-- `isPause(p)` is `p >= 128`: the sentinel and the reserved values (00_scope.md R13). -/
def isPause (pitch : Byte) : Bool := 128 ≤ pitch.toNat

/-- `MemWrite(OUT:0, 1, data)` (20_memory.md R64), seen as the record of the write: the sink cannot be read back.
The write belongs to the `INVOKE` that `invocations` counts (00_scope.md R9). -/
def State.writeOut (s : State) (data : Byte) : State :=
  { s with out := s.out ++ [⟨s.invocations, data, s.block.channel⟩] }

/-- `StopClear` (46_control_commands.md R171): it leaves `enabled`, `channel`, `subCycleCounter` and
`bufferedSample` alone. -/
def stopClear (b : Block) : Block :=
  { b with
    trackCount := 0
    samplesPerTick := 0
    sampleCounter := 0
    voices := VoiceFile.cleared }

/-- The form of the track spaces of one voice (20_memory.md R61): a bound track has exactly `eventCount[v]`
elements, and a voice with no track has none. -/
def trackSpaceWf (vc : Voice) : Bool :=
  match vc.track with
  | none => vc.eventCount.toNat == 0
  | some t => vc.eventCount.toNat == t.events.length

/-- The form of memory: `TRKP[v]` and `TRKD[v]` have exactly the elements 0 .. `eventCount[v]` - 1, for every voice
(R61). An element's place in the list is its index, so equal contents are equal data; the tables have their sizes by
their type, and `OUT` cannot be read. -/
def Memory.wf (b : Block) : Bool :=
  trackSpaceWf b.voices.v0 && trackSpaceWf b.voices.v1 && trackSpaceWf b.voices.v2 && trackSpaceWf b.voices.v3

end Sys2Proof.Machine
end

