-- ==== Sys2Proof/Machine/Flags.lean ====
section
/-! DEFINITION. The block has no condition codes and no flags register (10_state.md R38). Its derived predicates
(00_scope.md R13), its two status outputs (R38) and its three modes (46_control_commands.md R176). -/

namespace Sys2Proof.Machine

/-- `sessionActive` (00_scope.md R13). -/
def Block.sessionActive (b : Block) : Bool := b.trackCount != 0

/-- `finished(v)` (00_scope.md R13). -/
def Block.finished (b : Block) (v : VoiceId) : Bool := (b.voices.get v).seqState == .finished

/-- `isPlaying`: some active voice is not Finished (00_scope.md R13). The status output `is_playing` (10_state.md
R38). -/
def Block.isPlaying (b : Block) : Bool := (activeVoices b.trackCount).any (fun v => !b.finished v)

/-- The completion test: every active voice is Finished (45_scheduler.md R164). -/
def Block.allFinished (b : Block) : Bool := (activeVoices b.trackCount).all b.finished

/-- The status output `enabled` (10_state.md R31, R38). -/
def Block.enabledOutput (b : Block) : Bool := b.enabled

/-- The two-bit encoding of the sequencer state (10_state.md R26). -/
def seqStateCode : SeqState → BitVec 2
  | .priming => 0
  | .playing => 1
  | .finished => 2

/-- The modes of the engine (46_control_commands.md R176). -/
inductive Mode where
  | disabled
  | idle
  | playing
deriving DecidableEq, Repr

/-- The mode, a function of `enabled` and `trackCount` (R176). -/
def Block.mode (b : Block) : Mode :=
  if b.enabled then (if b.trackCount = 0 then .idle else .playing) else .disabled

end Sys2Proof.Machine
end

