-- ==== Sys2Proof/Machine/Operands.lean ====
section
/-! DEFINITION. The fixed ways an access forms its index: the complete list of 20_memory.md R74. -/

namespace Sys2Proof.Machine

/-- `MemRead(WAVE:i, 1)` (20_memory.md R62). -/
def readWave (c : Config) (i : Byte) : Byte := c.wave.read i.toFin

/-- `MemRead(FINT:p, 2)` (20_memory.md R63). -/
def readFint (c : Config) (p : BitVec 7) : Half := c.fint.read p.toFin

/-- `MemRead(FFRAC:p, 1)` (20_memory.md R63). -/
def readFfrac (c : Config) (p : BitVec 7) : Byte := c.ffrac.read p.toFin

/-- `INC[p]` = `FINT[p]` * 256 + `FFRAC[p]` (41_frequency_rom.md R110). -/
def increment (c : Config) (p : BitVec 7) : BitVec 24 := readFint c p ++ readFfrac c p

/-- The table index of a pitch that is no pause: its value, which is 0..127 (R74 (c)). -/
def pitchIndex (pitch : Byte) : BitVec 7 := pitch.extractLsb' 0 7

/-- The element at index `i` of the track spaces of a voice, both halves of it: the spaces have exactly
`eventCount[v]` elements, those of the bound track (20_memory.md R61). `none`: there is no such element. -/
def readEvent (vc : Voice) (i : Half) : Option Event :=
  match vc.track with
  | none => none
  | some t => if i.toNat < vc.eventCount.toNat then t.events[i.toNat]? else none

/-- `MemRead(TRKP[v]:i, 1)` (20_memory.md R61, R74 (a)). -/
def readTrkp (vc : Voice) (i : Half) : Option Byte := (readEvent vc i).map Event.pitch

/-- `MemRead(TRKD[v]:i, 2)` (20_memory.md R61, R74 (b)). -/
def readTrkd (vc : Voice) (i : Half) : Option Half := (readEvent vc i).map Event.delay

/-- The number of a track's events, as `PLAY` latches it (10_state.md R25). -/
def trackLength (t : Track) : Half := BitVec.ofNat 16 t.events.length

/-- The track presented for a voice with `PLAY`; a voice the list does not reach is presented the empty track
(log 14). -/
def trackOperand (tracks : List Track) (v : VoiceId) : Track := tracks.getD v.val Track.empty

end Sys2Proof.Machine
end

