-- ==== Sys2Proof/Machine/Commands.lean ====
section
/-! DEFINITION. The control commands (46_control_commands.md). None writes `OUT`, none raises an error (R170). -/

namespace Sys2Proof.Machine

/-- `INIT chan` on the registers (46_control_commands.md R172). -/
def initBlock (c : Config) (chan : Byte) (b : Block) : Block :=
  let b1 := { stopClear b with subCycleCounter := c.subcycles, bufferedSample := c.mid }
  if chan ∈ c.validChannels then { b1 with enabled := true, channel := chan } else { b1 with enabled := false }

/-- `INIT chan` (46_control_commands.md R172). -/
def execInit (chan : Byte) (s : State) : Host.Outcome State Fault Refusal :=
  .next { s with block := initBlock s.config chan s.block }

/-- A voice as an accepted `PLAY` starts it, bound to its track (46_control_commands.md R173). -/
def boundVoice (t : Track) : Voice where
  seqState := .priming
  currentPitch := pause
  remainingTicks := 0
  eventCursor := 0
  eventCount := trackLength t
  phaseIndex := 0
  phaseFraction := 0
  track := some t

/-- The loop of `PLAY` over the voices of a list (46_control_commands.md R173). -/
def bindVoices (tracks : List Track) : List VoiceId → VoiceFile → VoiceFile
  | [], f => f
  | v :: vs, f => bindVoices tracks vs (f.set v (boundVoice (trackOperand tracks v)))

/-- An accepted `PLAY` of `n` tracks (46_control_commands.md R173): a running session is replaced. -/
def startSession (c : Config) (tracks : List Track) (n : Fin 5) (spt : Half) (b : Block) : Block :=
  let b1 := stopClear b
  { b1 with
    trackCount := n
    samplesPerTick := spt
    subCycleCounter := c.subcycles
    sampleCounter := spt
    voices := bindVoices tracks (activeVoices n) b1.voices }

/-- `PLAY` on the registers: no state change while disabled, or when `count` is 0 or above 4
(46_control_commands.md R173). -/
def playBlock (c : Config) (tracks : List Track) (count : Byte) (spt : Half) (b : Block) : Block :=
  if b.enabled = false then b
  else if h : count.toNat = 0 ∨ 4 < count.toNat then b
  else startSession c tracks ⟨count.toNat, by omega⟩ spt b

/-- `PLAY tracks, count, spt` (46_control_commands.md R173). -/
def execPlay (tracks : List Track) (count : Byte) (spt : Half) (s : State) : Host.Outcome State Fault Refusal :=
  .next { s with block := playBlock s.config tracks count spt s.block }

/-- `STOP` (46_control_commands.md R174). -/
def execStop (s : State) : Host.Outcome State Fault Refusal :=
  .next { s with block := stopClear s.block }

/-- `ISPLAYING` (46_control_commands.md R175): it returns one bit and writes no register. -/
def execIsPlaying (s : State) : Host.Outcome State Fault Refusal :=
  .next { s with results := s.results ++ [s.block.isPlaying] }

end Sys2Proof.Machine
end

