-- ==== Sys2Proof/Machine/Reset.lean ====
section
/-! DEFINITION. The strobe `RESET` (70_reset_and_hazards.md). -/

namespace Sys2Proof.Machine

/-- `RESET` on the registers (70_reset_and_hazards.md R200). -/
def resetBlock (c : Config) (b : Block) : Block :=
  stopClear { b with enabled := false, channel := 0, subCycleCounter := c.subcycles, bufferedSample := c.mid }

/-- `RESET` (70_reset_and_hazards.md R200). The configuration is untouched (R201), and what has been observed or is
still to be presented is outside the block. -/
def execReset (s : State) : Host.Outcome State Fault Refusal :=
  .next { s with block := resetBlock s.config s.block }

end Sys2Proof.Machine
end

