-- ==== Sys2Proof/Machine/Waveform.lean ====
section
/-! DEFINITION. The sample generator (40_waveform_rom.md). -/

namespace Sys2Proof.Machine

/-- `SampleAt(x)` (40_waveform_rom.md R100): reduce `x` modulo 1024, read the quarter table mirrored in quadrants II
and IV, and go below the midpoint in quadrants III and IV. -/
def sampleAt (c : Config) (x : Nat) : Byte :=
  let idx := BitVec.ofNat 10 x
  let off : Byte := idx.extractLsb' 0 8
  let t := if idx.getLsbD 8 then readWave c (255#8 - off) else readWave c off
  if idx.getLsbD 9 then c.mid - t else c.mid + t

end Sys2Proof.Machine
end

