-- ==== Sys2Proof/Machine/Oscillator.lean ====
section
/-! DEFINITION. The oscillator of a voice (42_oscillator.md). -/

namespace Sys2Proof.Machine

/-- `Advance(v, p)` (42_oscillator.md R120): the fraction's sum has nine bits, and its bit 8 carries into the phase
index, which wraps at 16 bits and is reduced nowhere else. -/
def advance (c : Config) (vc : Voice) (p : BitVec 7) : Voice :=
  let s : BitVec 9 := vc.phaseFraction.zeroExtend 9 + (readFfrac c p).zeroExtend 9
  { vc with
    phaseFraction := s.extractLsb' 0 8
    phaseIndex := vc.phaseIndex + readFint c p + (s.extractLsb' 8 1).zeroExtend 16 }

/-- `Emit(v)` (42_oscillator.md R121). -/
def emit (c : Config) (vc : Voice) : Byte :=
  if isPause vc.currentPitch then c.mid else sampleAt c vc.phaseIndex.toNat

/-- `VoiceSample(v)` (42_oscillator.md R122): a voice in pause gives `MID` and keeps its phase; a sounding voice is
advanced first and read second. -/
def voiceSample (c : Config) (vc : Voice) : Voice × Byte :=
  if isPause vc.currentPitch then (vc, c.mid)
  else
    let vc' := advance c vc (pitchIndex vc.currentPitch)
    (vc', sampleAt c vc'.phaseIndex.toNat)

end Sys2Proof.Machine
end

