-- ==== Sys2Proof/Machine/Mixer.lean ====
section
/-! DEFINITION. The fixed-point mixer (44_mixer.md). -/

namespace Sys2Proof.Machine

/-- The loop of `Mix` (44_mixer.md R150): sample the voices in order, writing back each one's phase and adding its
amplitude to the 10-bit sum. -/
def sumVoices (c : Config) : List VoiceId → Block → BitVec 10 → Block × BitVec 10
  | [], b, sum => (b, sum)
  | v :: vs, b, sum =>
    let r := voiceSample c (b.voice v)
    sumVoices c vs (b.setVoice v r.1) (sum + r.2.zeroExtend 10)

/-- The divisor table (44_mixer.md R151), with `MID` for no voice (R156). -/
def mixScale (c : Config) (n : Fin 5) (sum : BitVec 10) : Byte :=
  match n with
  | 0 => c.mid
  | 1 => sum.setWidth 8
  | 2 => (sum >>> 1).setWidth 8
  | 3 => (sum / 3#10).setWidth 8
  | 4 => (sum >>> 2).setWidth 8

/-- `Mix()` (44_mixer.md R150): the block with its sounding voices advanced, and the mean of the active voices. -/
def mix (c : Config) (b : Block) : Block × Byte :=
  let r := sumVoices c (activeVoices b.trackCount) b 0
  (r.1, mixScale c b.trackCount r.2)

end Sys2Proof.Machine
end

