-- ==== Sys2Proof/WellFormed.lean ====
section
/-! DEFINITION. Which instructions an encoding stands for, and which tracks the spec calls well-formed. -/

namespace Sys2Proof

/-- An instruction that some word, with its side operands, stands for. `RSVD` takes a pitch of 0x80..0xFE only
(30_encoding.md R82); `PLAY` carries the tracks of the voices below its count, of which there are at most four
(R87, 00_scope.md R10). Every other operand is checked by its width. -/
def Instr.wellFormed : Instr → Bool
  | .note _ _ _ => true
  | .rest _ _ => true
  | .rsvd _ pitch _ => 0x80 ≤ pitch.toNat && pitch != 0xFF#8
  | .init _ => true
  | .play tracks count _ => tracks.length == min count.toNat 4
  | .stop => true
  | .isPlaying => true
  | .invoke => true
  | .reset => true

/-- The check as a proposition. -/
abbrev WellFormed (i : Instr) : Prop := i.wellFormed = true

/-- A well-formed track (30_encoding.md R92): every pitch is 0..127 or 0xFF, there is an event, and the last
event is a `REST`. The hardware accepts every track; this names what a careful host provides. -/
def Track.wellFormed (t : Track) : Bool :=
  t.events.all (fun e => e.pitch.toNat < 128 || e.pitch == 0xFF#8) &&
    (match t.events.getLast? with
     | none => false
     | some e => e.pitch == 0xFF#8)

end Sys2Proof
end

