-- ==== Sys2Proof/Decode.lean ====
section
/-! DEFINITION. Decoding words to instructions and encoding instructions as words (30_encoding.md). -/

namespace Sys2Proof

/-- Why bytes from a source are no instruction. -/
inductive DecodeError where
  /-- The source's format has another length (30_encoding.md R80). -/
  | wrongLength
  /-- The strobe vector is 0b00: nothing is presented (R89). -/
  | noStrobe
deriving DecidableEq, Repr

/-- The list of the bindings, voice 0 first. -/
def Bindings.toList (b : Bindings) : List Track := [b.t0, b.t1, b.t2, b.t3]

/-- The bindings that present a list of tracks; a port beyond the list presents the empty track. -/
def Bindings.ofList (ts : List Track) : Bindings :=
  ⟨ts.getD 0 Track.empty, ts.getD 1 Track.empty, ts.getD 2 Track.empty, ts.getD 3 Track.empty⟩

/-! ## Format EV -/

/-- The class of an event, which depends on its pitch alone (30_encoding.md R82). -/
inductive PitchClass where
  | note (pn : BitVec 7)
  | rest
  | rsvd (pitch : Byte)
deriving DecidableEq, Repr

/-- R82: the sentinel is tested before bit 7. -/
def pitchClass (pitch : Byte) : PitchClass :=
  if pitch = 0xFF#8 then .rest
  else if pitch.getLsbD 7 then .rsvd pitch
  else .note (pitch.extractLsb' 0 7)

/-- The instruction an event of voice `v`'s track is (R82, R83, R84). -/
def decodeEvent (v : VoiceId) (e : Event) : Instr :=
  match pitchClass e.pitch with
  | .note pn => .note v pn e.delay
  | .rest => .rest v e.delay
  | .rsvd pitch => .rsvd v pitch e.delay

/-- The fields of the canonical event word: `pitch` [7:0], `delay` [23:8] (R81). -/
def eventOfWord (w : BitVec 24) : Event := ⟨w.extractLsb' 0 8, w.extractLsb' 8 16⟩

/-- The canonical event word of an event (R81). -/
def wordOfEvent (e : Event) : BitVec 24 := e.delay ++ e.pitch

/-- Format EV: every word is an instruction (R82). -/
def decodeEV (v : VoiceId) (w : BitVec 24) : Instr := decodeEvent v (eventOfWord w)

/-! ## Format CW -/

/-- The voices below `count` take the bindings presented for them (R87). -/
def playTracks (b : Bindings) (count : Byte) : List Track := b.toList.take count.toNat

/-- Format CW: `op` is [31:30], `count` [23:16], `spt` [15:0], `chan` [7:0]; every word is an instruction, and the
other bits have no effect (R86, R88). -/
def decodeCW (b : Bindings) (w : BitVec 32) : Instr :=
  let op := w.extractLsb' 30 2
  if op = 0b00#2 then .init (w.extractLsb' 0 8)
  else if op = 0b01#2 then .play (playTracks b (w.extractLsb' 16 8)) (w.extractLsb' 16 8) (w.extractLsb' 0 16)
  else if op = 0b10#2 then .stop
  else .isPlaying

/-! ## Format SV -/

/-- The strobe vector {rst, tick}: 0b00 is nothing, 0b01 `INVOKE`, bit 1 set `RESET` (R89). -/
def decodeSV (sv : BitVec 2) : Option Instr :=
  if sv.getLsbD 1 then some .reset
  else if sv.getLsbD 0 then some .invoke
  else none

/-! ## Bytes -/

/-- Decode the bytes of one word, least significant byte first (R65, R81), by the format of their source. A strobe
vector is the two low bits of its one byte; the block has no other strobe pin (R89). -/
def decode (src : Source) (bytes : List Byte) : Except DecodeError Instr :=
  match src, bytes with
  | .track v, [b0, b1, b2] => .ok (decodeEV v (b2 ++ b1 ++ b0))
  | .command t, [b0, b1, b2, b3] => .ok (decodeCW t (b3 ++ b2 ++ b1 ++ b0))
  | .strobe, [b0] =>
    match decodeSV (b0.extractLsb' 0 2) with
    | some i => .ok i
    | none => .error .noStrobe
  | .track _, _ => .error .wrongLength
  | .command _, _ => .error .wrongLength
  | .strobe, _ => .error .wrongLength

/-! ## Encoding -/

/-- The three bytes of a 24-bit word, least significant first (R81). -/
def bytes24 (w : BitVec 24) : List Byte := [w.extractLsb' 0 8, w.extractLsb' 8 8, w.extractLsb' 16 8]

/-- The four bytes of a 32-bit word, least significant first (R65). -/
def bytes32 (w : BitVec 32) : List Byte :=
  [w.extractLsb' 0 8, w.extractLsb' 8 8, w.extractLsb' 16 8, w.extractLsb' 24 8]

/-- The source an instruction comes from, with its side operands. -/
def Instr.source : Instr → Source
  | .note v _ _ => .track v
  | .rest v _ => .track v
  | .rsvd v _ _ => .track v
  | .init _ => .command (Bindings.ofList [])
  | .play tracks _ _ => .command (Bindings.ofList tracks)
  | .stop => .command (Bindings.ofList [])
  | .isPlaying => .command (Bindings.ofList [])
  | .invoke => .strobe
  | .reset => .strobe

/-- The bytes of an instruction's word, ignored bits 0 (R81, R84, R86, R88, R89). -/
def encode : Instr → List Byte
  | .note _ pn delay => bytes24 (wordOfEvent ⟨0#1 ++ pn, delay⟩)
  | .rest _ delay => bytes24 (wordOfEvent ⟨0xFF#8, delay⟩)
  | .rsvd _ pitch delay => bytes24 (wordOfEvent ⟨pitch, delay⟩)
  | .init chan => bytes32 (0b00#2 ++ 0#22 ++ chan)
  | .play _ count spt => bytes32 (0b01#2 ++ 0#6 ++ count ++ spt)
  | .stop => bytes32 (0b10#2 ++ 0#30)
  | .isPlaying => bytes32 (0b11#2 ++ 0#30)
  | .invoke => [0b00000001#8]
  | .reset => [0b00000010#8]

/-! ## The host's table words -/

/-- The source and number of bytes of a row of `nbits` bits (R80): one byte holds a strobe vector, three an event
of voice 0's track, four a command presented with four empty tracks. -/
def tableSource (nbits : Nat) : Option (Source × Nat) :=
  if nbits = 2 ∨ nbits = 8 then some (.strobe, 1)
  else if nbits = 24 then some (.track 0, 3)
  else if nbits = 32 then some (.command (Bindings.ofList []), 4)
  else none

/-- The low `n` bytes of a number, least significant first. -/
def littleEndian : Nat → Nat → List Byte
  | 0, _ => []
  | n + 1, w => BitVec.ofNat 8 w :: littleEndian n (w / 256)

/-- What the decoder reads from a table row's word. -/
def decodeTableWord (nbits w : Nat) : Option Instr :=
  match tableSource nbits with
  | none => none
  | some (src, n) =>
    match decode src (littleEndian n w) with
    | .ok i => some i
    | .error _ => none

end Sys2Proof
end

