-- ==== Sys2Proof/Machine/Events.lean ====
section
/-! DEFINITION. The track events `NOTE`, `REST`, `RSVD` (43_track_sequencer.md R131 to R133). The pitch operand acts
when the event is loaded; the delay operand is read before that, by the tick that comes to wait for it (R134, R136). -/

namespace Sys2Proof.Machine

/-- What loading any event does: the pitch byte into `currentPitch[v]`, and the cursor one further. -/
def loadPitch (pitch : Byte) (vc : Voice) : Voice :=
  { vc with currentPitch := pitch, eventCursor := vc.eventCursor + 1 }

/-- The load of `NOTE pn, delay` (R131). -/
def loadNote (pn : BitVec 7) (vc : Voice) : Voice := loadPitch (0#1 ++ pn) vc

/-- The load of `REST delay` (R132). -/
def loadRest (vc : Voice) : Voice := loadPitch pause vc

/-- The load of `RSVD pitch, delay` (R133): the byte is stored as it is. -/
def loadRsvd (pitch : Byte) (vc : Voice) : Voice := loadPitch pitch vc

/-- The load of an event by its class (30_encoding.md R82). -/
def loadEvent (e : Event) (vc : Voice) : Voice :=
  match pitchClass e.pitch with
  | .note pn => loadNote pn vc
  | .rest => loadRest vc
  | .rsvd pitch => loadRsvd pitch vc

/-- `NOTE pn, delay` at voice `v` (R131). -/
def execNote (v : VoiceId) (pn : BitVec 7) (_delay : Half) (s : State) : Host.Outcome State Fault Refusal :=
  .next (s.setVoice v (loadNote pn (s.block.voice v)))

/-- `REST delay` at voice `v` (R132). -/
def execRest (v : VoiceId) (_delay : Half) (s : State) : Host.Outcome State Fault Refusal :=
  .next (s.setVoice v (loadRest (s.block.voice v)))

/-- `RSVD pitch, delay` at voice `v` (R133). -/
def execRsvd (v : VoiceId) (pitch : Byte) (_delay : Half) (s : State) : Host.Outcome State Fault Refusal :=
  .next (s.setVoice v (loadRsvd pitch (s.block.voice v)))

end Sys2Proof.Machine
end

