-- ==== Sys2Proof/Machine/Sequencer.lean ====
section
/-! DEFINITION. The tick of a voice and the loop that loads events (43_track_sequencer.md R130, R134 to R137). -/

namespace Sys2Proof.Machine

/-- The transition to Finished in `Consume`: it also writes the pause sentinel (43_track_sequencer.md R136, R139). -/
def finishVoice (vc : Voice) : Voice := { vc with seqState := .finished, currentPitch := pause }

/-- Set the ticks left until the next event (10_state.md R24). -/
def waitFor (d : Half) (vc : Voice) : Voice := { vc with remainingTicks := d }

/-- The loop of `Consume` (43_track_sequencer.md R136), with fuel for the events left, `eventCount[v]` -
`eventCursor[v]`. With none left there is no element at the cursor to load. -/
def consumeLoop (v : VoiceId) : Nat → Voice → Except Fault Voice
  | 0, vc => .error (.noTrackElement v vc.eventCursor)
  | fuel + 1, vc =>
    match readEvent vc vc.eventCursor with
    | none => .error (.noTrackElement v vc.eventCursor)
    | some e =>
      let vc1 := loadEvent e vc
      if vc1.eventCursor = vc1.eventCount then .ok (finishVoice vc1)
      else
        match readTrkd vc1 vc1.eventCursor with
        | none => .error (.noTrackElement v vc1.eventCursor)
        | some d =>
          if d ≠ 0 then .ok (waitFor d vc1) else consumeLoop v fuel (waitFor d vc1)

/-- `Consume(v)` (43_track_sequencer.md R136). -/
def consume (v : VoiceId) (vc : Voice) : Except Fault Voice :=
  consumeLoop v (vc.eventCount.toNat - vc.eventCursor.toNat) vc

/-- The Priming tick (43_track_sequencer.md R134). -/
def primingTick (v : VoiceId) (vc : Voice) : Except Fault Voice :=
  let vc1 := { vc with currentPitch := pause }
  if vc1.eventCount = 0 then .ok { vc1 with seqState := .finished }
  else
    match readTrkd vc1 0 with
    | none => .error (.noTrackElement v 0)
    | some d => .ok { vc1 with remainingTicks := d, seqState := .playing }

/-- The Playing tick (43_track_sequencer.md R135): a guarded decrement, then `Consume` if the count is 0. -/
def playingTick (v : VoiceId) (vc : Voice) : Except Fault Voice :=
  let vc1 := if vc.remainingTicks ≠ 0 then waitFor (vc.remainingTicks - 1) vc else vc
  if vc1.remainingTicks = 0 then consume v vc1 else .ok vc1

/-- `TickVoice(v)` (43_track_sequencer.md R130); a Finished voice does not change (R137). -/
def tickVoice (v : VoiceId) (vc : Voice) : Except Fault Voice :=
  match vc.seqState with
  | .priming => primingTick v vc
  | .playing => playingTick v vc
  | .finished => .ok vc

/-- Tick the voices of a list in order (45_scheduler.md R163). -/
def tickVoices : List VoiceId → Block → Except Fault Block
  | [], b => .ok b
  | v :: vs, b =>
    match tickVoice v (b.voice v) with
    | .error f => .error f
    | .ok vc => tickVoices vs (b.setVoice v vc)

end Sys2Proof.Machine
end

