-- ==== Sys2Proof/Machine/Scheduler.lean ====
section
/-! DEFINITION. The scheduler: the `INVOKE` step (45_scheduler.md). -/

namespace Sys2Proof.Machine

/-- The sample step after the write to `OUT` (45_scheduler.md R160 branch 2, R161): reload the sub-cycle counter,
mix, and count the sample if a session is active. -/
def sampleStep (c : Config) (b : Block) : Block :=
  let b1 : Block := { b with subCycleCounter := c.subcycles }
  let m := mix c b1
  let b2 : Block := { m.1 with bufferedSample := m.2 }
  if b2.trackCount ≠ 0 then { b2 with sampleCounter := b2.sampleCounter - 1 } else b2

/-- The tick pass (45_scheduler.md R160 branch 3, R163), with the completion test at its end (R164). -/
def tickPass (b : Block) : Except Fault Block :=
  match tickVoices (activeVoices b.trackCount) { b with sampleCounter := b.samplesPerTick } with
  | .error f => .error f
  | .ok b1 => .ok (if b1.allFinished then stopClear b1 else b1)

/-- `INVOKE` (45_scheduler.md R160). The event is counted also while the engine is disabled; the engine then does
nothing else (R167). -/
def execInvoke (s : State) : Host.Outcome State Fault Refusal :=
  let s0 : State := { s with invocations := s.invocations + 1 }
  if s.block.enabled then
    let b : Block := { s.block with subCycleCounter := s.block.subCycleCounter - 1 }
    if b.subCycleCounter = 0 then
      .next { s0.writeOut b.bufferedSample with block := sampleStep s.config b }
    else if b.trackCount ≠ 0 ∧ b.sampleCounter = 0 then
      match tickPass b with
      | .error f => .fault f
      | .ok b1 => .next { s0 with block := b1 }
    else .next { s0 with block := b }
  else .next s0

end Sys2Proof.Machine
end

