-- ==== Sys2Proof/Machine/Dispatch.lean ====
section
/-! DEFINITION. One arm for each instruction. -/

namespace Sys2Proof.Machine

def exec (i : Instr) (s : State) : Host.Outcome State Fault Refusal :=
  match i with
  -- the track events
  | .note v pn delay => Sys2Proof.Machine.execNote v pn delay s
  | .rest v delay => Sys2Proof.Machine.execRest v delay s
  | .rsvd v pitch delay => Sys2Proof.Machine.execRsvd v pitch delay s
  -- the control commands
  | .init chan => Sys2Proof.Machine.execInit chan s
  | .play tracks count spt => Sys2Proof.Machine.execPlay tracks count spt s
  | .stop => Sys2Proof.Machine.execStop s
  | .isPlaying => Sys2Proof.Machine.execIsPlaying s
  -- the strobes
  | .invoke => Sys2Proof.Machine.execInvoke s
  | .reset => Sys2Proof.Machine.execReset s

end Sys2Proof.Machine
end

