-- ==== Sys2Proof/Machine/Fetch.lean ====
section
/-! DEFINITION. Where the next event comes from: the oldest port sample (00_scope.md R8, R10), and how an
instruction's word is put there. -/

namespace Sys2Proof.Machine

/-- What the ports present next, with the state in which it is taken from them. -/
inductive Fetched where
  /-- No event: no sample is left, or it holds neither a strobe nor a command. -/
  | nothing (s : State)
  | instr (i : Instr) (s : State)
deriving DecidableEq, Repr

/-- The samples left after the command of sample `p` is taken: the cycle's strobe, if it has one, is still to come
(60_exceptions.md R188). -/
def afterCommand (p : PortSample) (rest : List PortSample) : List PortSample :=
  if p.sv = 0#2 then rest else { p with cmd := none } :: rest

/-- Take the next event (60_exceptions.md R188): `rst` wins and discards its cycle's command and `tick`; else the
command comes first; then the `INVOKE`. -/
def fetch (s : State) : Fetched :=
  match s.input with
  | [] => .nothing s
  | p :: rest =>
    if p.sv.getLsbD 1 then .instr .reset { s with input := rest }
    else
      match p.cmd with
      | some c => .instr (decodeCW c.tracks c.word) { s with input := afterCommand p rest }
      | none =>
        match decodeSV p.sv with
        | some i => .instr i { s with input := rest }
        | none => .nothing { s with input := rest }

/-- A sample with the strobe vector alone. -/
def strobeSample (sv : BitVec 2) : PortSample := ⟨sv, none⟩

/-- A sample with a command alone. -/
def commandSample (word : BitVec 32) (tracks : Bindings) : PortSample := ⟨0#2, some ⟨word, tracks⟩⟩

/-- A track that holds an event word and, one tick after it, the terminator a well-made track ends with
(30_encoding.md R92). -/
def eventTrack (w : BitVec 24) : Track := ⟨[eventOfWord w, ⟨pause, 1⟩], by simp⟩

/-- A voice that waits no longer for event 0 of a track: the state the Priming tick leaves when the delay of event 0
is 0 (43_track_sequencer.md R134). -/
def voiceAboutToLoad (t : Track) : Voice := { boundVoice t with seqState := .playing }

/-- A session of one voice whose tick pass is due in the next `INVOKE` and loads event 0 of the track (45_scheduler.md
R160). -/
def sessionAboutToLoad (c : Config) (t : Track) (b : Block) : Block :=
  { stopClear b with
    enabled := true
    trackCount := 1
    samplesPerTick := 1
    sampleCounter := 0
    subCycleCounter := c.subcycles
    voices := VoiceFile.cleared.set 0 (voiceAboutToLoad t) }

/-- A state in which the very next step runs an instruction word (log 5): a strobe vector or a command is the next
port sample; an event stands at the cursor of voice 0 in a session whose tick pass is due, and the next port sample
is the `INVOKE` that runs it. -/
def placeWord (s : State) (nbits w : Nat) : State :=
  match tableSource nbits with
  | none => s
  | some (.strobe, _) => { s with input := strobeSample (BitVec.ofNat 2 w) :: s.input }
  | some (.command t, _) => { s with input := commandSample (BitVec.ofNat 32 w) t :: s.input }
  | some (.track _, _) =>
    { s with
      input := strobeSample 0b01#2 :: s.input
      block := sessionAboutToLoad s.config (eventTrack (BitVec.ofNat 24 w)) s.block }

end Sys2Proof.Machine
end

