-- ==== Sys2Proof/Machine/Step.lean ====
section
/-! DEFINITION. One step of the machine: one event (00_scope.md R8). -/

namespace Sys2Proof.Machine

/-- Take the next event from the ports and run it. When none is presented nothing changes (30_encoding.md R89,
log 3). -/
def step (s : State) : Host.Outcome State Fault Refusal :=
  match fetch s with
  | .nothing s' => .next s'
  | .instr i s' => exec i s'

/-- A state in which the next step runs the instruction word `w` of `nbits` bits. -/
def State.withFetchWord (s : State) (nbits w : Nat) : State := placeWord s nbits w

end Sys2Proof.Machine
end

