-- ==== Sys2Proof/Safety.lean ====
section
/-! DEFINITION. What counts as a safe run: the invariants the spec says hold between steps (10_state.md R39 and the
rules named below), and the words in which runs of many strobes and ticks are spoken of. -/

namespace Sys2Proof.Machine

/-- The instruction, or the step, has a next state: neither a fault nor a refusal. -/
abbrev Completes (o : Host.Outcome State Fault Refusal) : Prop := ∃ t, o = .next t

/-- Voice `v` is active: it belongs to the session (00_scope.md R13). -/
abbrev Block.active (b : Block) (v : VoiceId) : Prop := v.val < b.trackCount.val

/-! ## The invariants of 10_state.md R39 -/

/-- R39 (a): the sub-cycle counter is in 1..`SUBCYCLES`. -/
abbrev SubCycleInRange (c : Config) (b : Block) : Prop :=
  1 ≤ b.subCycleCounter.toNat ∧ b.subCycleCounter.toNat ≤ c.subcycles.toNat

/-- R39 (c): a voice outside the session is as `StopClear` leaves it. -/
abbrev InactiveCleared (b : Block) : Prop := ∀ v : VoiceId, ¬ b.active v → b.voice v = Voice.cleared

/-- R39 (d) and (e), with the binding that `PLAY` makes (46_control_commands.md R173) and the cursor of a Priming
voice (10_state.md R28): what holds of a voice of the session. -/
abbrev VoiceConsistent (vc : Voice) : Prop :=
  vc.track.isSome = true ∧ trackSpaceWf vc = true ∧
  vc.eventCursor.toNat ≤ vc.eventCount.toNat ∧
  (vc.seqState = .playing → vc.eventCursor.toNat < vc.eventCount.toNat) ∧
  (vc.seqState = .priming → vc.eventCursor = 0) ∧
  (vc.seqState ≠ .playing → isPause vc.currentPitch = true)

/-- R39 (d), (e): every active voice is consistent. -/
abbrev ActiveConsistent (b : Block) : Prop := ∀ v : VoiceId, b.active v → VoiceConsistent (b.voice v)

/-- R39 (f): a disabled engine has no session. -/
abbrev DisabledHasNoSession (b : Block) : Prop := b.enabled = false → b.trackCount = 0

/-- R39 (g): a session has a voice that is not Finished. -/
abbrev SessionHasUnfinished (b : Block) : Prop :=
  b.trackCount ≠ 0 → ∃ v : VoiceId, b.active v ∧ (b.voice v).seqState ≠ .finished

/-- 46_control_commands.md R174: with no session the session's two counters are already cleared. -/
abbrev NoSessionCountersClear (b : Block) : Prop := b.trackCount = 0 → b.samplesPerTick = 0 ∧ b.sampleCounter = 0

/-- 10_state.md R21: the channel of an enabled engine is a valid one. -/
abbrev ChannelValid (c : Config) (b : Block) : Prop := b.enabled = true → b.channel ∈ c.validChannels

/-- The invariants that hold between steps (10_state.md R39 and R21, 46_control_commands.md R174); R39 (b),
`trackCount` ≤ 4, is the register's type. -/
abbrev Inv (s : State) : Prop :=
  SubCycleInRange s.config s.block ∧ InactiveCleared s.block ∧ ActiveConsistent s.block ∧
  DisabledHasNoSession s.block ∧ SessionHasUnfinished s.block ∧ NoSessionCountersClear s.block ∧
  ChannelValid s.config s.block

/-! ## Further invariants -/

/-- A level that the rules can produce: `OUT_MIN` .. `OUT_MAX` (40_waveform_rom.md R102, 44_mixer.md R153). -/
abbrev InOutputRange (c : Config) (level : Byte) : Prop := c.outMin ≤ level.toNat ∧ level.toNat ≤ c.outMax

/-- The pending sample and every byte written so far are in the output range (44_mixer.md R153). -/
abbrev OutputsInRange (s : State) : Prop :=
  InOutputRange s.config s.block.bufferedSample ∧ ∀ o ∈ s.out, InOutputRange s.config o.data

/-- 45_scheduler.md R166: with `samplesPerTick` at least 1 the sample counter of a session stays in
0..`samplesPerTick`, and it is 0 only between the sample step that made it 0 and the next invocation, before which
the sub-cycle counter is at `SUBCYCLES`. -/
abbrev SampleCounterInRange (s : State) : Prop :=
  s.block.trackCount ≠ 0 → 1 ≤ s.block.samplesPerTick.toNat →
    s.block.sampleCounter.toNat ≤ s.block.samplesPerTick.toNat ∧
    (s.block.sampleCounter = 0 → s.block.subCycleCounter = s.config.subcycles)

/-- The pitch a voice of the session holds (43_track_sequencer.md R141, 10_state.md R28): while Playing, the pitch
byte of the event before the cursor, and 0xFF before any event is loaded; 0xFF while Priming, with the cursor at the
start (46_control_commands.md R173), or Finished. -/
abbrev HoldsPitchBeforeCursor (vc : Voice) : Prop :=
  match vc.seqState with
  | .playing =>
    if vc.eventCursor = 0 then vc.currentPitch = pause
    else readTrkp vc (vc.eventCursor - 1) = some vc.currentPitch
  | .priming => vc.eventCursor = 0 ∧ vc.currentPitch = pause
  | .finished => vc.currentPitch = pause

/-- Every voice of the session holds the pitch of the event before its cursor. -/
abbrev SessionHoldsPitches (b : Block) : Prop := ∀ v : VoiceId, b.active v → HoldsPitchBeforeCursor (b.voice v)

/-! ## Runs of strobes and of ticks -/

/-- `n` strobes `INVOKE` and no other event, stopping at the first stop. -/
def invokes : Nat → State → Host.Outcome State Fault Refusal
  | 0, s => .next s
  | n + 1, s =>
    match exec .invoke s with
    | .next t => invokes n t
    | .fault f => .fault f
    | .refused r => .refused r

/-- `n` ticks of voice `v` (43_track_sequencer.md R130), stopping at the first stop. -/
def ticks (v : VoiceId) : Nat → Voice → Except Fault Voice
  | 0, vc => .ok vc
  | n + 1, vc =>
    match tickVoice v vc with
    | .ok vc' => ticks v n vc'
    | .error f => .error f

/-- What `Consume` does once it has loaded an event (43_track_sequencer.md R136): end past the last event, wait for the
next one, or load it now if its delay is 0. -/
def afterLoad (v : VoiceId) (vc : Voice) : Except Fault Voice :=
  if vc.eventCursor = vc.eventCount then .ok (finishVoice vc)
  else
    match readTrkd vc vc.eventCursor with
    | none => .error (.noTrackElement v vc.eventCursor)
    | some d => if d ≠ 0 then .ok (waitFor d vc) else consume v (waitFor d vc)

/-- The delay `d(i)` of event `i` of a track, 0 beyond its end. -/
def delayOf (t : Track) (i : Nat) : Nat := ((t.events[i]?).map (fun e => e.delay.toNat)).getD 0

/-- `T(i)`, the number of the tick pass that loads event `i` (43_track_sequencer.md R138). -/
def loadPass (t : Track) : Nat → Nat
  | 0 => max 2 (delayOf t 0 + 1)
  | i + 1 => loadPass t i + delayOf t (i + 1)

/-- The phase accumulator as one 24-bit number (42_oscillator.md R124). -/
def accumulator (vc : Voice) : BitVec 24 := vc.phaseIndex ++ vc.phaseFraction

/-- Two voices have the same sequencer registers (10_state.md R23 to R28): they differ in their phases at most. -/
abbrev SameSequencer (a b : Voice) : Prop :=
  a.seqState = b.seqState ∧ a.currentPitch = b.currentPitch ∧ a.remainingTicks = b.remainingTicks ∧
  a.eventCursor = b.eventCursor ∧ a.eventCount = b.eventCount ∧ a.track = b.track

/-- Two voices have the same phase accumulator (10_state.md R29, R30). -/
abbrev SamePhase (a b : Voice) : Prop := a.phaseIndex = b.phaseIndex ∧ a.phaseFraction = b.phaseFraction

/-- The sum of the amplitudes of the active voices (44_mixer.md R150), exact. -/
def amplitudeSum (c : Config) (b : Block) : Nat :=
  ((activeVoices b.trackCount).map (fun v => (voiceSample c (b.voice v)).2.toNat)).sum

end Sys2Proof.Machine
end

