-- ==== Sys2Proof/Certificates/Slice0/Obligations.lean ====
section
/-! DEFINITION. The statements for the provers. Each docstring names the rule or section of spec/ it formalises. The
configuration is a field of the state, so a statement about every state is one about every admissible configuration
(log 1). Where a docstring says "the spec's inference", the rule carries the spec's own mark [derived: …]; where it names
a log entry, that part of the statement is the model's choice. -/

open Sys2Proof Sys2Proof.Machine

/-! ## Encodings (30_encoding.md) -/

/-- Decoding the encoding of a well-formed instruction gives the instruction back, every operand at every value
(30_encoding.md sections 2 to 4; the byte form of the words and the side operands are logs 6 and 11). -/
def Obligations.DecodeOfEncodeIsTheInstruction : Prop :=
  ∀ i : Instr, WellFormed i → decode i.source (encode i) = .ok i

/-- R82: the pitch alone decides the class of an event, the sentinel is tested before bit 7, and every 24-bit value is
exactly one of the three instructions, none of which traps. -/
def Obligations.EveryEventWordIsOneInstruction : Prop :=
  ∀ (v : VoiceId) (w : BitVec 24),
    ((w.extractLsb' 0 8).toNat < 128 → decodeEV v w = .note v (w.extractLsb' 0 7) (w.extractLsb' 8 16)) ∧
    (w.extractLsb' 0 8 = 0xFF#8 → decodeEV v w = .rest v (w.extractLsb' 8 16)) ∧
    (128 ≤ (w.extractLsb' 0 8).toNat → w.extractLsb' 0 8 ≠ 0xFF#8 →
      decodeEV v w = .rsvd v (w.extractLsb' 0 8) (w.extractLsb' 8 16) ∧ isPause (w.extractLsb' 0 8) = true) ∧
    WellFormed (decodeEV v w) ∧ ∀ s, Completes (exec (decodeEV v w) s)

/-- R81, in the byte form of log 11: the word of the instruction an event word is, is that word again: no bit of it is
lost. -/
def Obligations.EventWordsEncodeBack : Prop :=
  ∀ (v : VoiceId) (w : BitVec 24),
    encode (decodeEV v w) = bytes24 w ∧ (decodeEV v w).source = .track v ∧
    decode (.track v) (bytes24 w) = .ok (decodeEV v w)

/-- R88: the opcode map of the command words, by mask and match. -/
def Obligations.CommandWordsByMaskAndMatch : Prop :=
  ∀ (b : Bindings) (w : BitVec 32),
    (w &&& 0xC0000000#32 = 0x00000000#32 → decodeCW b w = .init (w.extractLsb' 0 8)) ∧
    (w &&& 0xC0000000#32 = 0x40000000#32 →
      decodeCW b w =
        .play (b.toList.take (w.extractLsb' 16 8).toNat) (w.extractLsb' 16 8) (w.extractLsb' 0 16)) ∧
    (w &&& 0xC0000000#32 = 0x80000000#32 → decodeCW b w = .stop) ∧
    (w &&& 0xC0000000#32 = 0xC0000000#32 → decodeCW b w = .isPlaying) ∧
    WellFormed (decodeCW b w)

/-- R89: the strobe vector, by mask and match: 0b00 is nothing, 0b01 `INVOKE`, and bit 1 set `RESET`, with `tick`
discarded. -/
def Obligations.StrobeVectorsByMaskAndMatch : Prop :=
  ∀ sv : BitVec 2,
    (sv = 0b00#2 → decodeSV sv = none) ∧ (sv &&& 0x3#2 = 0x1#2 → decodeSV sv = some .invoke) ∧
    (sv &&& 0x2#2 = 0x2#2 → decodeSV sv = some .reset)

/-- Words and strobe vectors of 95_test_vectors.md V-ENC decode to the instructions they stand for. The spec writes an
event's bytes out; the byte lists of the command words rest on log 11 and those of the strobes on log 10, the model's
choices. -/
def Obligations.WordsOfTheSpecDecode : Prop :=
  decode (.track 0) [0x3C#8, 0x00#8, 0x00#8] = .ok (.note 0 60 0) ∧
  decode (.track 1) [0x45#8, 0x2C#8, 0x01#8] = .ok (.note 1 69 300) ∧
  decode (.track 2) [0xFF#8, 0x64#8, 0x00#8] = .ok (.rest 2 100) ∧
  decode (.track 3) [0x80#8, 0x05#8, 0x00#8] = .ok (.rsvd 3 0x80 5) ∧
  decode (.command (Bindings.ofList [])) [0x09#8, 0x00#8, 0x00#8, 0x00#8] = .ok (.init 9) ∧
  decode (.command (Bindings.ofList [])) [0x56#8, 0x34#8, 0x12#8, 0xBF#8] = .ok .stop ∧
  decode (.command (Bindings.ofList [])) [0xFF#8, 0xFF#8, 0xFF#8, 0xFF#8] = .ok .isPlaying ∧
  decode .strobe [0x01#8] = .ok .invoke ∧
  decode .strobe [0x02#8] = .ok .reset

/-! ## Steps (00_scope.md R8, 60_exceptions.md R188) -/

/-- A STEP RUNS THE DECODED INSTRUCTION: a word presented alone at the command port or the strobe pins is run by the
step that takes it; nothing is added around it but that the port sample is gone (the list of port samples is log 2).
-/
def Obligations.StepRunsThePresentedWord : Prop :=
  ∀ (s : State) (rest : List PortSample) (i : Instr),
    (∀ c : Command, s.input = ⟨0#2, some c⟩ :: rest → decode (.command c.tracks) (bytes32 c.word) = .ok i →
      step s = exec i { s with input := rest }) ∧
    (∀ sv : BitVec 2, s.input = ⟨sv, none⟩ :: rest → decode .strobe [0#6 ++ sv] = .ok i →
      step s = exec i { s with input := rest })

/-- A STEP RUNS THE DECODED EVENT: an event is executed inside an `INVOKE` step, by the tick of its voice (R136). When
the tick of a Playing voice has come to the event at its cursor, the tick is that event's instruction, run on the
voice with no tick left to wait for, followed by what `Consume` does after a load (log 5). -/
def Obligations.TickRunsTheDecodedEvent : Prop :=
  ∀ (s : State) (v : VoiceId) (e : Event) (i : Instr),
    (s.block.voice v).seqState = .playing → (s.block.voice v).remainingTicks.toNat ≤ 1 →
    readEvent (s.block.voice v) (s.block.voice v).eventCursor = some e →
    decode (.track v) (bytes24 (wordOfEvent e)) = .ok i →
    ∃ t, exec i (s.setVoice v (waitFor 0 (s.block.voice v))) = .next t ∧
      tickVoice v (s.block.voice v) = afterLoad v (t.block.voice v)

/-- The model's own placing of a word (log 5): the next step runs a placed command or strobe as it is, and a placed
event inside the `INVOKE` that is placed with it, after which voice 0 waits one tick for the terminator. -/
def Obligations.PlacedWordIsRunByTheNextStep : Prop :=
  ∀ (s : State) (w : Nat) (i : Instr),
    (decodeTableWord 32 w = some i → step (s.withFetchWord 32 w) = exec i s) ∧
    (decodeTableWord 8 w = some i → step (s.withFetchWord 8 w) = exec i s) ∧
    (decodeTableWord 24 w = some i →
      ∃ t u, exec i (s.withFetchWord 24 w) = .next t ∧ step (s.withFetchWord 24 w) = .next u ∧
        u.block.voice 0 = waitFor 1 (t.block.voice 0))

/-- R89 at the ports (log 2): a cycle with `SV` = 0b00 and no command is nothing, 0b01 is `INVOKE`, and bit 1 set is
`RESET`, whatever else its cycle presents. -/
def Obligations.StrobeVectorSelectsTheEvent : Prop :=
  ∀ (s : State) (p : PortSample) (rest : List PortSample), s.input = p :: rest →
    (p.sv &&& 0x2#2 = 0x2#2 → step s = exec .reset { s with input := rest }) ∧
    (p.sv &&& 0x3#2 = 0x1#2 → p.cmd = none → step s = exec .invoke { s with input := rest }) ∧
    (p.sv = 0b00#2 → p.cmd = none → step s = .next { s with input := rest })

/-- 60_exceptions.md R188 (2), (3): a command and a strobe of one cycle are two steps, the command first; the
invocation sees the state the command left (log 16). -/
def Obligations.CommandRunsBeforeTheStrobeOfItsCycle : Prop :=
  ∀ (s : State) (c : Command) (rest : List PortSample), s.input = ⟨0b01#2, some c⟩ :: rest →
    step s = exec (decodeCW c.tracks c.word) { s with input := ⟨0b01#2, none⟩ :: rest } ∧
    ∀ t, step s = .next t → step t = exec .invoke { t with input := rest }

/-! ## Track events (43_track_sequencer.md) -/

/-- `NOTE` (R131): it completes in every state; the pitch number is the voice's pitch, the cursor is one further,
nothing else changes; and the voice then sounds: its next sample advances its oscillator with the note's increment. -/
def Obligations.NoteIsLoadedAndSounds : Prop :=
  ∀ (v : VoiceId) (pn : BitVec 7) (delay : Half) (s : State), ∃ vc : Voice,
    vc = { s.block.voice v with
      currentPitch := 0#1 ++ pn
      eventCursor := (s.block.voice v).eventCursor + 1 } ∧
    exec (.note v pn delay) s = .next (s.setVoice v vc) ∧
    voiceSample s.config vc =
      (advance s.config vc pn, sampleAt s.config (advance s.config vc pn).phaseIndex.toNat)

/-- `REST` and `RSVD` (R132, R133): they complete in every state; the byte is the voice's pitch, the cursor is one
further, nothing else changes; and a voice that holds such a byte is silent and keeps its phase. -/
def Obligations.RestAndReservedPitchesAreSilent : Prop :=
  ∀ (v : VoiceId) (pitch : Byte) (delay : Half) (s : State),
    exec (.rest v delay) s = .next (s.setVoice v { s.block.voice v with
      currentPitch := 0xFF#8
      eventCursor := (s.block.voice v).eventCursor + 1 }) ∧
    exec (.rsvd v pitch delay) s = .next (s.setVoice v { s.block.voice v with
      currentPitch := pitch
      eventCursor := (s.block.voice v).eventCursor + 1 }) ∧
    ∀ vc : Voice, vc.currentPitch = 0xFF#8 ∨ (WellFormed (.rsvd v pitch delay) ∧ vc.currentPitch = pitch) →
      voiceSample s.config vc = (vc, s.config.mid)

/-- The frame of the three events (60_exceptions.md R192, 10_state.md R22): only `currentPitch` and `eventCursor` of
their own voice change; every other register, every element of memory and everything observed stays. -/
def Obligations.EventsChangeOnlyPitchAndCursorOfTheirVoice : Prop :=
  ∀ (v : VoiceId) (i : Instr) (s t : State),
    ((∃ pn delay, i = .note v pn delay) ∨ (∃ delay, i = .rest v delay) ∨ (∃ pitch delay, i = .rsvd v pitch delay)) →
    exec i s = .next t →
    t.config = s.config ∧ t.input = s.input ∧ t.invocations = s.invocations ∧ t.out = s.out ∧ t.results = s.results ∧
    t.block.enabled = s.block.enabled ∧ t.block.channel = s.block.channel ∧
    t.block.trackCount = s.block.trackCount ∧ t.block.samplesPerTick = s.block.samplesPerTick ∧
    t.block.subCycleCounter = s.block.subCycleCounter ∧ t.block.sampleCounter = s.block.sampleCounter ∧
    t.block.bufferedSample = s.block.bufferedSample ∧
    (∀ w, w ≠ v → t.block.voice w = s.block.voice w) ∧
    (t.block.voice v).seqState = (s.block.voice v).seqState ∧
    (t.block.voice v).remainingTicks = (s.block.voice v).remainingTicks ∧
    (t.block.voice v).eventCount = (s.block.voice v).eventCount ∧
    (t.block.voice v).track = (s.block.voice v).track ∧
    SamePhase (t.block.voice v) (s.block.voice v) ∧
    (∀ w k, readTrkp (t.block.voice w) k = readTrkp (s.block.voice w) k ∧
      readTrkd (t.block.voice w) k = readTrkd (s.block.voice w) k) ∧
    (∀ k, readWave t.config k = readWave s.config k) ∧
    (∀ p, readFint t.config p = readFint s.config p ∧ readFfrac t.config p = readFfrac s.config p)

/-- R134: the Priming tick of a voice as `PLAY` leaves it loads no event; an empty track is Finished, any other one is
Playing and waits the delay of event 0. -/
def Obligations.PrimingTickWaitsForEventZero : Prop :=
  (∀ t : Track, (boundVoice t).seqState = .priming ∧ (boundVoice t).currentPitch = 0xFF#8 ∧
    (boundVoice t).eventCursor = 0 ∧ (boundVoice t).remainingTicks = 0) ∧
  ∀ (v : VoiceId) (vc : Voice), vc.seqState = .priming →
    (vc.eventCount = 0 → tickVoice v vc = .ok { vc with currentPitch := 0xFF#8, seqState := .finished }) ∧
    (∀ d, vc.eventCount ≠ 0 → readTrkd vc 0 = some d →
      tickVoice v vc = .ok { vc with currentPitch := 0xFF#8, remainingTicks := d, seqState := .playing })

/-- R135: the Playing tick decrements a count that is not 0, and consumes when the count is then 0, so that 0 and 1
consume in the same tick. -/
def Obligations.PlayingTickDecrementsThenConsumes : Prop :=
  ∀ (v : VoiceId) (vc : Voice), vc.seqState = .playing →
    (2 ≤ vc.remainingTicks.toNat → tickVoice v vc = .ok { vc with remainingTicks := vc.remainingTicks - 1 }) ∧
    (vc.remainingTicks = 1 → tickVoice v vc = consume v { vc with remainingTicks := 0 }) ∧
    (vc.remainingTicks = 0 → tickVoice v vc = consume v vc)

/-- R137: a Finished voice does not change in a tick, and is silent with the pitch 0xFF it holds. -/
def Obligations.FinishedTickChangesNothing : Prop :=
  ∀ (c : Config) (v : VoiceId) (vc : Voice), vc.seqState = .finished →
    tickVoice v vc = .ok vc ∧ (vc.currentPitch = 0xFF#8 → (voiceSample c vc).2 = c.mid)

/-- R136, with R140, the spec's inference from it: `Consume` at event `i` loads the events `i` .. `i + k` when the
delays of all but the first are 0 and the event after them is the end of the track or has a delay to wait for. Only
the pitch of the last one stays; at the end of the track the voice is Finished and holds 0xFF. -/
def Obligations.ConsumeLoadsTheZeroDelayChain : Prop :=
  ∀ (v : VoiceId) (vc : Voice) (t : Track) (k : Nat),
    vc.track = some t → vc.eventCount = trackLength t →
    vc.eventCursor.toNat + k < t.events.length →
    (∀ j, vc.eventCursor.toNat < j → j ≤ vc.eventCursor.toNat + k → delayOf t j = 0) →
    (vc.eventCursor.toNat + k + 1 = t.events.length →
      consume v vc = .ok { vc with
        seqState := .finished
        currentPitch := 0xFF#8
        eventCursor := vc.eventCount
        remainingTicks := if k = 0 then vc.remainingTicks else 0 }) ∧
    (∀ e e', t.events[vc.eventCursor.toNat + k]? = some e → t.events[vc.eventCursor.toNat + k + 1]? = some e' →
      e'.delay ≠ 0 →
      consume v vc = .ok { vc with
        currentPitch := e.pitch
        eventCursor := BitVec.ofNat 16 (vc.eventCursor.toNat + k + 1)
        remainingTicks := e'.delay })

/-- R138, R141 and R142, the spec's inferences, with R139: of a track with events, event `i` is loaded exactly in tick
pass `T(i)`, the voice is Finished exactly from pass `T(n - 1)` on, and between two loads it holds the pitch of the
earlier event; before the first and after the last it holds 0xFF. An empty track is Finished from pass 1 on. -/
def Obligations.EventsAreLoadedInTheirTickPasses : Prop :=
  ∀ (v : VoiceId) (t : Track) (p : Nat), 1 ≤ p →
    (t.events = [] → ∃ vc, ticks v p (boundVoice t) = .ok vc ∧ vc.seqState = .finished ∧ vc.currentPitch = pause) ∧
    (t.events ≠ [] → ∃ vc, ticks v p (boundVoice t) = .ok vc ∧
      (∀ i, i < t.events.length → (i < vc.eventCursor.toNat ↔ loadPass t i ≤ p)) ∧
      (vc.seqState = .finished ↔ loadPass t (t.events.length - 1) ≤ p) ∧
      (∀ i e, i + 1 < t.events.length → loadPass t i ≤ p → p < loadPass t (i + 1) → t.events[i]? = some e →
        vc.currentPitch = e.pitch) ∧
      (p < loadPass t 0 ∨ loadPass t (t.events.length - 1) ≤ p → vc.currentPitch = pause))

/-! ## Oscillator and waveform (42_oscillator.md, 40_waveform_rom.md) -/

/-- R120: what `Advance` writes, in exact arithmetic: the sum of the fractions modulo 256, and the phase index plus
the integer increment plus the carry, modulo 65536. -/
def Obligations.AdvanceAddsTheIncrementWithItsCarry : Prop :=
  ∀ (c : Config) (vc : Voice) (p : BitVec 7),
    advance c vc p = { vc with
      phaseFraction := BitVec.ofNat 8 (vc.phaseFraction.toNat + (readFfrac c p).toNat)
      phaseIndex := BitVec.ofNat 16 (vc.phaseIndex.toNat + (readFint c p).toNat +
        (vc.phaseFraction.toNat + (readFfrac c p).toNat) / 256) }

/-- R124, the spec's inference from R120: `n` calls of `Advance` with one pitch add `n` times its increment to the
24-bit accumulator, modulo 2^24, and change nothing else. -/
def Obligations.AdvancesAddToThe24BitAccumulator : Prop :=
  ∀ (c : Config) (p : BitVec 7) (n : Nat) (vc : Voice),
    accumulator ((fun x => advance c x p)^[n] vc) = accumulator vc + BitVec.ofNat 24 n * increment c p ∧
    SameSequencer ((fun x => advance c x p)^[n] vc) vc

/-- R125, the spec's inference from R124: with an increment of 1 and 1/256, 256 calls add exactly 257 to the phase
index, modulo 65536, and leave the fraction. -/
def Obligations.CarryPropertyOf256Advances : Prop :=
  ∀ (c : Config) (p : BitVec 7) (vc : Voice), readFint c p = 1 → readFfrac c p = 1 →
    ((fun x => advance c x p)^[256] vc).phaseIndex = vc.phaseIndex + 257 ∧
    ((fun x => advance c x p)^[256] vc).phaseFraction = vc.phaseFraction

/-- R100: the four quadrants of `SampleAt`, for every unsigned number, in exact arithmetic. -/
def Obligations.SampleAtRebuildsThePeriod : Prop :=
  ∀ (c : Config) (x : Nat),
    (x % 1024 < 256 →
      (sampleAt c x).toNat = c.mid.toNat + (readWave c (BitVec.ofNat 8 (x % 256))).toNat) ∧
    (256 ≤ x % 1024 → x % 1024 < 512 →
      (sampleAt c x).toNat = c.mid.toNat + (readWave c (BitVec.ofNat 8 (255 - x % 256))).toNat) ∧
    (512 ≤ x % 1024 → x % 1024 < 768 →
      (sampleAt c x).toNat + (readWave c (BitVec.ofNat 8 (x % 256))).toNat = c.mid.toNat) ∧
    (768 ≤ x % 1024 →
      (sampleAt c x).toNat + (readWave c (BitVec.ofNat 8 (255 - x % 256))).toNat = c.mid.toNat)

/-- R103, the spec's inference from R100 and R101: the crossings and extremes of the period, its symmetries, and its
period of 1024. -/
def Obligations.WaveformIsSymmetric : Prop :=
  ∀ c : Config,
    sampleAt c 0 = c.mid ∧ sampleAt c 511 = c.mid ∧ sampleAt c 512 = c.mid ∧ sampleAt c 1023 = c.mid ∧
    (sampleAt c 255).toNat = c.outMax ∧ (sampleAt c 256).toNat = c.outMax ∧
    (sampleAt c 767).toNat = c.outMin ∧ (sampleAt c 768).toNat = c.outMin ∧
    (∀ off, off < 256 →
      sampleAt c (256 + off) = sampleAt c (255 - off) ∧
      (sampleAt c (512 + off)).toNat + (sampleAt c off).toNat = 2 * c.mid.toNat ∧
      (sampleAt c (768 + off)).toNat + (sampleAt c (255 - off)).toNat = 2 * c.mid.toNat) ∧
    ∀ x, sampleAt c (x + 1024) = sampleAt c x

/-- R104, the spec's inference from R100 and R101: the period is weakly monotone within each quadrant. -/
def Obligations.WaveformIsMonotoneInEachQuadrant : Prop :=
  ∀ (c : Config) (i j : Nat), i ≤ j →
    (j < 256 ∨ (768 ≤ i ∧ j < 1024) → (sampleAt c i).toNat ≤ (sampleAt c j).toNat) ∧
    ((256 ≤ i ∧ j < 512) ∨ (512 ≤ i ∧ j < 768) → (sampleAt c j).toNat ≤ (sampleAt c i).toNat)

/-- R105, the spec's inference from R100 and R101: every sample lies in `OUT_MIN` .. `OUT_MAX`, both bounds are
reached, and so does what any voice gives. -/
def Obligations.SamplesStayInTheOutputRange : Prop :=
  ∀ c : Config,
    (∀ x, InOutputRange c (sampleAt c x)) ∧ (∃ x, (sampleAt c x).toNat = c.outMax) ∧
    (∃ x, (sampleAt c x).toNat = c.outMin) ∧ (∀ vc, InOutputRange c (voiceSample c vc).2)

/-- R121, R122: a voice in pause gives `MID` and keeps its phase; a sounding voice is advanced with the increment of
its pitch and then read. -/
def Obligations.VoiceSampleAdvancesThenReads : Prop :=
  ∀ (c : Config) (vc : Voice),
    (128 ≤ vc.currentPitch.toNat → emit c vc = c.mid ∧ voiceSample c vc = (vc, c.mid)) ∧
    (∀ pn : BitVec 7, vc.currentPitch = 0#1 ++ pn →
      emit c vc = sampleAt c vc.phaseIndex.toNat ∧
      voiceSample c vc = (advance c vc pn, emit c (advance c vc pn)))

/-! ## Mixer (44_mixer.md) -/

/-- R150, R151: with no voice the mix is `MID`; otherwise it is the sum of the active voices' amplitudes divided by
their number, rounded down. Each active voice is sampled once, and nothing else changes. -/
def Obligations.MixIsTheFlooredMean : Prop :=
  ∀ (c : Config) (b : Block),
    (b.trackCount = 0 → mix c b = (b, c.mid)) ∧
    (b.trackCount ≠ 0 → (mix c b).2.toNat = amplitudeSum c b / b.trackCount.val) ∧
    (mix c b).1 = { b with voices := (mix c b).1.voices } ∧
    ∀ v, (mix c b).1.voice v = if b.active v then (voiceSample c (b.voice v)).1 else b.voice v

/-- R153 and R154, the spec's inferences from R150 and R151: the mix lies between the least and the greatest amplitude
of the active voices, so equal amplitudes mix to themselves, and every mix is in the output range. -/
def Obligations.MixLiesBetweenItsAmplitudes : Prop :=
  ∀ (c : Config) (b : Block),
    (∀ lo hi : Nat, b.trackCount ≠ 0 →
      (∀ v, b.active v → lo ≤ (voiceSample c (b.voice v)).2.toNat ∧ (voiceSample c (b.voice v)).2.toNat ≤ hi) →
      lo ≤ (mix c b).2.toNat ∧ (mix c b).2.toNat ≤ hi) ∧
    InOutputRange c (mix c b).2

/-- R152: a resting voice of the session counts in the divisor with the amplitude `MID`. -/
def Obligations.RestingVoicesCountInTheDivisor : Prop :=
  ∀ (c : Config) (b : Block) (v : VoiceId), b.active v →
    (∀ w, b.active w → w ≠ v → isPause (b.voice w).currentPitch = true) →
    (mix c b).2.toNat =
      ((voiceSample c (b.voice v)).2.toNat + (b.trackCount.val - 1) * c.mid.toNat) / b.trackCount.val

/-! ## Scheduler (45_scheduler.md) -/

/-- R167: while `enabled` is 0, `INVOKE` changes no register and writes nothing to `OUT`. -/
def Obligations.DisabledInvokeDoesNothing : Prop :=
  ∀ s : State, s.block.enabled = false → ∃ t, exec .invoke s = .next t ∧
    t.block = s.block ∧ t.out = s.out ∧ t.results = s.results ∧ t.config = s.config ∧ t.input = s.input

/-- R161: the sample step writes the pending sample, reloads the sub-cycle counter, mixes the next sample, advancing
the oscillators, and counts the sample if a session is active. The write is seen as a record in `out` (log 4). -/
def Obligations.SampleStepWritesThenMixes : Prop :=
  ∀ s : State, s.block.enabled = true → s.block.subCycleCounter = 1 →
    exec .invoke s = .next { s with
      invocations := s.invocations + 1
      out := s.out ++ [⟨s.invocations + 1, s.block.bufferedSample, s.block.channel⟩]
      block := { s.block with
        subCycleCounter := s.config.subcycles
        bufferedSample := (mix s.config s.block).2
        sampleCounter := if s.block.trackCount = 0 then s.block.sampleCounter else s.block.sampleCounter - 1
        voices := (mix s.config s.block).1.voices } }

/-- R160, R168: an enabled invocation that is neither a sample step nor a tick pass only counts a sub-cycle. -/
def Obligations.BareSubCycleOnlyCounts : Prop :=
  ∀ s : State, s.block.enabled = true → s.block.subCycleCounter ≠ 1 →
    (s.block.trackCount = 0 ∨ s.block.sampleCounter ≠ 0) →
    exec .invoke s = .next { s with
      invocations := s.invocations + 1
      block := { s.block with subCycleCounter := s.block.subCycleCounter - 1 } }

/-- R162, R163, R164: in an invocation that is no sample step, with a session whose sample counter is 0, every active
voice is ticked once and the sample counter reloaded; if every active voice is then Finished the session is cleared in
the same step. -/
def Obligations.TickPassTicksEveryActiveVoice : Prop :=
  ∀ (s : State) (ticked : VoiceId → Voice), s.block.enabled = true → s.block.subCycleCounter ≠ 1 →
    s.block.trackCount ≠ 0 → s.block.sampleCounter = 0 →
    (∀ v, s.block.active v → tickVoice v (s.block.voice v) = .ok (ticked v)) →
    ((∃ v, s.block.active v ∧ (ticked v).seqState ≠ .finished) → ∃ vs : VoiceFile,
      exec .invoke s = .next { s with
        invocations := s.invocations + 1
        block := { s.block with
          subCycleCounter := s.block.subCycleCounter - 1
          sampleCounter := s.block.samplesPerTick
          voices := vs } } ∧
      ∀ v, vs.get v = if s.block.active v then ticked v else s.block.voice v) ∧
    ((∀ v, s.block.active v → (ticked v).seqState = .finished) →
      exec .invoke s = .next { s with
        invocations := s.invocations + 1
        block := { s.block with
          subCycleCounter := s.block.subCycleCounter - 1
          trackCount := 0
          samplesPerTick := 0
          sampleCounter := 0
          voices := VoiceFile.cleared } })

/-- R64, R161, R170: the sink is written by sample steps only, one byte each, the pending sample with the channel,
seen as a record in `out` (log 4). -/
def Obligations.OnlySampleStepsWriteTheSink : Prop :=
  ∀ (i : Instr) (s t : State), exec i s = .next t →
    t.out = s.out ∨
    (i = .invoke ∧ s.block.enabled = true ∧ s.block.subCycleCounter = 1 ∧
      t.out = s.out ++ [⟨s.invocations + 1, s.block.bufferedSample, s.block.channel⟩])

/-- The frame of `INVOKE` (R160, R163, 42_oscillator.md R123, 60_exceptions.md R191): it never writes `enabled` or
`channel`, and never starts a session; a sample step leaves every sequencer register, any other invocation every phase
while the session lasts; the pending sample changes in sample steps only; no element of memory changes while the
session lasts. That every `INVOKE` is numbered, also one on a disabled engine, is the model's choice (log 4). -/
def Obligations.InvokeFrame : Prop :=
  ∀ s t : State, exec .invoke s = .next t →
    t.config = s.config ∧ t.input = s.input ∧ t.results = s.results ∧ t.invocations = s.invocations + 1 ∧
    t.block.enabled = s.block.enabled ∧ t.block.channel = s.block.channel ∧
    (t.block.trackCount = s.block.trackCount ∨ t.block.trackCount = 0) ∧
    (s.block.subCycleCounter = 1 → ∀ v, SameSequencer (t.block.voice v) (s.block.voice v)) ∧
    (s.block.subCycleCounter ≠ 1 → t.block.bufferedSample = s.block.bufferedSample) ∧
    (t.block.trackCount = s.block.trackCount → s.block.trackCount ≠ 0 →
      t.block.samplesPerTick = s.block.samplesPerTick ∧
      (s.block.subCycleCounter ≠ 1 → ∀ v, SamePhase (t.block.voice v) (s.block.voice v)) ∧
      (∀ v, (t.block.voice v).eventCount = (s.block.voice v).eventCount ∧
        (t.block.voice v).track = (s.block.voice v).track) ∧
      ∀ v k, readTrkp (t.block.voice v) k = readTrkp (s.block.voice v) k ∧
        readTrkd (t.block.voice v) k = readTrkd (s.block.voice v) k)

/-- R165, the spec's inference from R160 to R162 and R173: the timeline of a session of `S` sub-cycles a sample and
`P` >= 1 samples a tick, after `N` strobes and no other event since its `PLAY`. The strobes all complete; `N / S`
bytes have been written; the sub-cycle counter is at `S - N mod S`; and while the session lasts the sample counter is
where the last sample step or tick pass left it, and the sequencer of every voice is as `(N - 1) / (P * S)` ticks of
its bound voice leave it: tick pass `k` is strobe `k * P * S + 1`. With R142, the spec's inference: the session lasts
exactly as long as some voice of it is not Finished after that many ticks. The list of writes is log 4; the empty
track of a voice for which `tracks` is too short is log 14. -/
def Obligations.SessionTimeline : Prop :=
  ∀ (s s0 : State) (tracks : List Track) (count : Byte) (spt : Half) (n : Nat),
    s.block.enabled = true → 1 ≤ count.toNat → count.toNat ≤ 4 → 1 ≤ spt.toNat →
    exec (.play tracks count spt) s = .next s0 →
    ∃ t, invokes n s0 = .next t ∧
      t.block.subCycleCounter.toNat = s.config.subcycles.toNat - n % s.config.subcycles.toNat ∧
      t.out.length = s.out.length + n / s.config.subcycles.toNat ∧
      (t.block.trackCount ≠ 0 ↔ ∃ (v : VoiceId) (vc : Voice), v.val < count.toNat ∧
        ticks v ((n - 1) / (spt.toNat * s.config.subcycles.toNat)) (boundVoice (trackOperand tracks v)) = .ok vc ∧
        vc.seqState ≠ .finished) ∧
      (t.block.trackCount ≠ 0 →
        t.block.sampleCounter.toNat =
          (if 0 < n ∧ n % s.config.subcycles.toNat = 0 ∧ n / s.config.subcycles.toNat % spt.toNat = 0 then 0
           else spt.toNat - n / s.config.subcycles.toNat % spt.toNat) ∧
        ∀ v : VoiceId, v.val < count.toNat → ∃ vc,
          ticks v ((n - 1) / (spt.toNat * s.config.subcycles.toNat)) (boundVoice (trackOperand tracks v)) = .ok vc ∧
          SameSequencer (t.block.voice v) vc)

/-- R168: an enabled engine without a session goes on sampling: after `N` strobes it has written the pending sample
once and `MID` ever after, and no register but the sub-cycle counter and the pending sample has changed (the list of
writes is log 4). -/
def Obligations.IdleEngineWritesThePendingSampleThenSilence : Prop :=
  ∀ (s : State) (n : Nat), s.block.enabled = true → s.block.trackCount = 0 → SubCycleInRange s.config s.block →
    ∃ t ws, invokes n s = .next t ∧ t.out = s.out ++ ws ∧
      ws.length = (n + s.config.subcycles.toNat - s.block.subCycleCounter.toNat) / s.config.subcycles.toNat ∧
      (∀ o, ws.head? = some o → o.data = s.block.bufferedSample) ∧ (∀ o ∈ ws.tail, o.data = s.config.mid) ∧
      t.block = { s.block with
        subCycleCounter := t.block.subCycleCounter
        bufferedSample := if ws = [] then s.block.bufferedSample else s.config.mid }

/-! ## Commands and reset (46_control_commands.md, 70_reset_and_hazards.md) -/

/-- R172: `INIT` clears the session, restarts the sub-cycle count and the pending sample, and enables the engine on a
valid channel; on any other channel it disables it and keeps `channel`. -/
def Obligations.InitBindsAValidChannel : Prop :=
  ∀ (chan : Byte) (s : State),
    exec (.init chan) s = .next { s with
      block := {
        enabled := decide (chan ∈ s.config.validChannels)
        channel := if chan ∈ s.config.validChannels then chan else s.block.channel
        trackCount := 0
        samplesPerTick := 0
        subCycleCounter := s.config.subcycles
        sampleCounter := 0
        bufferedSample := s.config.mid
        voices := VoiceFile.cleared } }

/-- R173: `PLAY` changes nothing while disabled, or with a count of 0 or above 4; otherwise it replaces any session by
one of `count` voices, each Priming at the start of its track, with both counters loaded. -/
def Obligations.PlayStartsASessionOrIsIgnored : Prop :=
  ∀ (tracks : List Track) (count : Byte) (spt : Half) (s : State),
    (s.block.enabled = false → exec (.play tracks count spt) s = .next s) ∧
    (count.toNat = 0 ∨ 4 < count.toNat → exec (.play tracks count spt) s = .next s) ∧
    (s.block.enabled = true → 1 ≤ count.toNat → count.toNat ≤ 4 → ∃ (n : Fin 5) (vs : VoiceFile),
      n.val = count.toNat ∧
      exec (.play tracks count spt) s = .next { s with
        block := { s.block with
          trackCount := n
          samplesPerTick := spt
          subCycleCounter := s.config.subcycles
          sampleCounter := spt
          voices := vs } } ∧
      (∀ (v : VoiceId) (t : Track), v.val < count.toNat → tracks[v.val]? = some t →
        vs.get v =
          { seqState := .priming, currentPitch := 0xFF#8, remainingTicks := 0, eventCursor := 0,
            eventCount := BitVec.ofNat 16 t.events.length, phaseIndex := 0, phaseFraction := 0, track := some t }) ∧
      ∀ v : VoiceId, count.toNat ≤ v.val → vs.get v = Voice.cleared)

/-- R171, R174: `STOP` clears the session and every voice; it leaves `enabled`, `channel`, the sub-cycle counter and
the pending sample. -/
def Obligations.StopClearsTheSession : Prop :=
  ∀ s : State, ∃ vs : VoiceFile,
    exec .stop s = .next { s with
      block := { s.block with
        trackCount := 0
        samplesPerTick := 0
        sampleCounter := 0
        voices := vs } } ∧
    ∀ v, vs.get v =
      { seqState := .finished, currentPitch := 0xFF#8, remainingTicks := 0, eventCursor := 0, eventCount := 0,
        phaseIndex := 0, phaseFraction := 0, track := none }

/-- R174: with no session `STOP` changes nothing. -/
def Obligations.StopWithoutSessionChangesNothing : Prop :=
  ∀ s : State, Inv s → s.block.trackCount = 0 → exec .stop s = .next s

/-- R175: `ISPLAYING` changes no register and returns 1 exactly when some active voice is not Finished, which is the
status output `is_playing` and, under the invariants, `trackCount` ≠ 0. The result is appended to the results a run is
observed by (00_scope.md R9). -/
def Obligations.IsPlayingReturnsWhetherAVoiceIsUnfinished : Prop :=
  ∀ s : State, ∃ r : Bool,
    exec .isPlaying s = .next { s with results := s.results ++ [r] } ∧
    (r = true ↔ ∃ v : VoiceId, v.val < s.block.trackCount.val ∧ (s.block.voice v).seqState ≠ .finished) ∧
    r = s.block.isPlaying ∧ (Inv s → (r = true ↔ s.block.trackCount ≠ 0))

/-- R200: `RESET` gives every register its reset value in every state, writes nothing, and both status outputs are
then 0; it wins over any command or `INVOKE` presented with it. -/
def Obligations.ResetSetsEveryRegister : Prop :=
  ∀ s : State, ∃ b : Block, exec .reset s = .next { s with block := b } ∧
    (∀ p rest, s.input = p :: rest → p.sv &&& 0x2#2 = 0x2#2 → step s = .next { s with block := b, input := rest }) ∧
    b.enabled = false ∧ b.channel = 0 ∧ b.trackCount = 0 ∧ b.samplesPerTick = 0 ∧
    b.subCycleCounter = s.config.subcycles ∧ b.sampleCounter = 0 ∧ b.bufferedSample = s.config.mid ∧
    (∀ v, b.voice v =
      { seqState := .finished, currentPitch := 0xFF#8, remainingTicks := 0, eventCursor := 0, eventCount := 0,
        phaseIndex := 0, phaseFraction := 0, track := none }) ∧
    b.isPlaying = false ∧ b.enabledOutput = false

/-- R200, R202: the machine after reset (with the reference configuration, log 1) is a fixed point of `RESET`, is
disabled, and ignores any number of strobes but for their count (log 4). -/
def Obligations.ResetStateIsQuiet : Prop :=
  exec .reset State.reset = .next State.reset ∧ State.reset.block.mode = .disabled ∧
  ∀ n, invokes n State.reset = .next { State.reset with invocations := n }

/-- R176, the spec's inference from the rules of the commands and of `INVOKE`: the mode table. An `INVOKE` in Playing
leads to Idle exactly if it is a tick pass that finds every active voice Finished, and to Playing otherwise. -/
def Obligations.ModesChangeAsTheTableSays : Prop :=
  ∀ s t : State, Inv s →
    (exec .reset s = .next t → t.block.mode = .disabled) ∧
    (∀ chan, exec (.init chan) s = .next t →
      t.block.mode = if chan ∈ s.config.validChannels then .idle else .disabled) ∧
    (∀ tracks count spt, exec (.play tracks count spt) s = .next t →
      (s.block.mode ≠ .disabled ∧ 1 ≤ count.toNat ∧ count.toNat ≤ 4 → t.block.mode = .playing) ∧
      (s.block.mode = .disabled ∨ count.toNat = 0 ∨ 4 < count.toNat → t = s)) ∧
    (exec .stop s = .next t →
      (s.block.mode = .playing → t.block.mode = .idle) ∧ (s.block.mode ≠ .playing → t = s)) ∧
    (exec .invoke s = .next t →
      (s.block.mode = .disabled → t.block = s.block ∧ t.out = s.out) ∧
      (s.block.mode = .idle → t.block.mode = .idle) ∧
      (s.block.mode = .playing →
        (t.block.mode = .playing ∨ t.block.mode = .idle) ∧
        (t.block.mode = .idle ↔
          s.block.subCycleCounter ≠ 1 ∧ s.block.sampleCounter = 0 ∧
          ∀ v, s.block.active v → ∃ vc, tickVoice v (s.block.voice v) = .ok vc ∧ vc.seqState = .finished))) ∧
    (exec .isPlaying s = .next t →
      t.block = s.block ∧ t.results = s.results ++ [decide (s.block.mode = .playing)])

/-! ## Invariants and safety -/

/-- 10_state.md R39, the spec's inference: every step keeps the invariants, from every state that has them. Those of
R21 and R174 stand with them. -/
def Obligations.StepKeepsTheInvariants : Prop :=
  ∀ s t : State, Inv s → step s = .next t → Inv t

/-- The machine after reset has every invariant stated here. -/
def Obligations.ResetHasTheInvariants : Prop :=
  Inv State.reset ∧ OutputsInRange State.reset ∧ SampleCounterInRange State.reset ∧
  SessionHoldsPitches State.reset.block ∧ Memory.wf State.reset.block = true

/-- 60_exceptions.md R185: from every state that has the invariants a step has a next state; the model's own fault
(log 8) is not reached. -/
def Obligations.StepNeverStopsUnderTheInvariants : Prop :=
  ∀ s : State, Inv s → Completes (step s)

/-- No instruction is refused in any state, and only `INVOKE` can fault (the model's own fault, log 8). -/
def Obligations.OnlyInvokeCanFault : Prop :=
  ∀ (i : Instr) (s : State), (∀ r, exec i s ≠ .refused r) ∧ ∀ f, exec i s = .fault f → i = .invoke

/-- 10_state.md R38, the spec's inference from R164 and R171: under the invariants `is_playing` equals
`sessionActive`. -/
def Obligations.IsPlayingEqualsSessionActive : Prop :=
  ∀ s : State, Inv s → s.block.isPlaying = s.block.sessionActive

/-- 10_state.md R20, 70_reset_and_hazards.md R201: no step writes the configuration, and every element of the tables
reads as before. -/
def Obligations.StepKeepsTheConfiguration : Prop :=
  ∀ s t : State, step s = .next t →
    t.config = s.config ∧ (∀ i, readWave t.config i = readWave s.config i) ∧
    ∀ p, readFint t.config p = readFint s.config p ∧ readFfrac t.config p = readFfrac s.config p

/-- 20_memory.md R61: every step keeps the form of the track memory, from every state that has it. -/
def Obligations.StepKeepsTheFormOfMemory : Prop :=
  ∀ s t : State, Memory.wf s.block = true → step s = .next t → Memory.wf t.block = true

/-- 44_mixer.md R153, the spec's inference: every step keeps the pending sample and every byte ever written in the
output range. -/
def Obligations.StepKeepsOutputsInRange : Prop :=
  ∀ s t : State, OutputsInRange s → step s = .next t → OutputsInRange t

/-- 45_scheduler.md R166: every step keeps the sample counter in its range, so that with `samplesPerTick` of at least
1 no sample step ever finds it 0. -/
def Obligations.StepKeepsTheSampleCounterInRange : Prop :=
  (∀ s t : State, SampleCounterInRange s → step s = .next t → SampleCounterInRange t) ∧
  ∀ s : State, SampleCounterInRange s → s.block.trackCount ≠ 0 → 1 ≤ s.block.samplesPerTick.toNat →
    s.block.subCycleCounter = 1 → s.block.sampleCounter ≠ 0

/-- 43_track_sequencer.md R141, the spec's inference, and 10_state.md R28: every step keeps each voice of the session
holding the pitch of the event before its cursor. -/
def Obligations.StepKeepsTheHeldPitches : Prop :=
  ∀ s t : State, SessionHoldsPitches s.block → step s = .next t → SessionHoldsPitches t.block

/-- 10_state.md R28: an `INVOKE` never moves a cursor back, never past the event count, and not at all in a sample
step. -/
def Obligations.CursorsOnlyAdvance : Prop :=
  ∀ s t : State, Inv s → exec .invoke s = .next t → t.block.trackCount ≠ 0 →
    ∀ v, (s.block.voice v).eventCursor.toNat ≤ (t.block.voice v).eventCursor.toNat ∧
      (t.block.voice v).eventCursor.toNat ≤ (t.block.voice v).eventCount.toNat ∧
      (s.block.subCycleCounter = 1 → (t.block.voice v).eventCursor = (s.block.voice v).eventCursor)

/-- 10_state.md R22, 43_track_sequencer.md R130: what an `INVOKE` leaves in a voice depends on that voice and the
scheduler alone: two engines that agree on both, and whose sessions both last or both do not, leave the same in it,
whatever their other voices hold. -/
def Obligations.VoicesDoNotInteract : Prop :=
  ∀ (s1 s2 t1 t2 : State) (v : VoiceId),
    s1.config = s2.config → s1.block.enabled = s2.block.enabled → s1.block.trackCount = s2.block.trackCount →
    s1.block.subCycleCounter = s2.block.subCycleCounter → s1.block.sampleCounter = s2.block.sampleCounter →
    s1.block.voice v = s2.block.voice v →
    exec .invoke s1 = .next t1 → exec .invoke s2 = .next t2 → t1.block.trackCount = t2.block.trackCount →
    t1.block.voice v = t2.block.voice v
end

