-- ==== Sys2Proof/Laws/Config.lean ====
section
/-! SUPPORT. What admissibility (00_scope.md R6, 40_waveform_rom.md R101) gives of a configuration, read through the
model's reads. -/

namespace Sys2Proof.Machine

theorem nonDecreasing_getElem {l : List Byte} (h : nonDecreasing l = true) :
    ∀ (i j : Nat) (hi : i < l.length) (hj : j < l.length), i ≤ j → (l[i]).toNat ≤ (l[j]).toNat := by
  induction l with
  | nil => intro i j hi; simp at hi
  | cons a l ih =>
    have htail : nonDecreasing l = true := by
      cases l with
      | nil => rfl
      | cons b l => simp [nonDecreasing] at h; exact h.2
    intro i j hi hj hij
    match i, j with
    | 0, 0 => simp
    | i + 1, j + 1 => simpa using ih htail i j (by simpa using hi) (by simpa using hj) (by omega)
    | 0, j + 1 =>
      cases l with
      | nil => simp at hj
      | cons b l =>
        simp only [nonDecreasing, Bool.and_eq_true, decide_eq_true_eq] at h
        have := ih htail 0 j (by simp) (by simpa using hj) (by omega)
        simp only [List.getElem_cons_zero, List.getElem_cons_succ] at this ⊢
        omega

/-- Everything admissibility says, at once. -/
theorem Config.admissible_spec (c : Config) :
    2 ≤ c.subcycles.toNat ∧ c.wave.read 0 = 0#8 ∧ nonDecreasing c.wave.cells = true ∧
    c.peak.toNat ≤ c.mid.toNat ∧ c.mid.toNat + c.peak.toNat ≤ 255 ∧ 1 ≤ c.peak.toNat ∧
    strictlyRising c.validChannels = true := by
  simpa [Params.admissible, and_assoc] using c.ok

theorem two_le_subcycles (c : Config) : 2 ≤ c.subcycles.toNat := (Config.admissible_spec c).1

@[simp] theorem readWave_zero (c : Config) : readWave c 0#8 = 0#8 := (Config.admissible_spec c).2.1

theorem readWave_mono (c : Config) {i j : Byte} (h : i.toNat ≤ j.toNat) :
    (readWave c i).toNat ≤ (readWave c j).toNat := by
  have hn := (Config.admissible_spec c).2.2.1
  simp only [readWave, Rom.read]
  exact nonDecreasing_getElem hn _ _ _ _ h

theorem readWave_last (c : Config) : readWave c 255#8 = c.peak := rfl

theorem readWave_le_peak (c : Config) (i : Byte) : (readWave c i).toNat ≤ c.peak.toNat := by
  rw [← readWave_last]
  exact readWave_mono c (by have := i.isLt; simp; omega)

theorem peak_le_mid (c : Config) : c.peak.toNat ≤ c.mid.toNat := (Config.admissible_spec c).2.2.2.1

theorem mid_add_peak_le (c : Config) : c.mid.toNat + c.peak.toNat ≤ 255 := (Config.admissible_spec c).2.2.2.2.1

theorem one_le_peak (c : Config) : 1 ≤ c.peak.toNat := (Config.admissible_spec c).2.2.2.2.2.1

/-- Adding a table entry to the midpoint never wraps (42_oscillator.md R126). -/
theorem mid_add_wave (c : Config) (i : Byte) :
    (c.mid + readWave c i).toNat = c.mid.toNat + (readWave c i).toNat := by
  have h1 := readWave_le_peak c i
  have h2 := mid_add_peak_le c
  rw [BitVec.toNat_add]
  omega

/-- Subtracting a table entry from the midpoint never wraps (42_oscillator.md R126). -/
theorem mid_sub_wave (c : Config) (i : Byte) :
    (c.mid - readWave c i).toNat = c.mid.toNat - (readWave c i).toNat := by
  have h1 := readWave_le_peak c i
  have h2 := peak_le_mid c
  rw [BitVec.toNat_sub_of_le]
  rw [BitVec.le_def]
  omega

end Sys2Proof.Machine
end

