-- ==== Sys2Proof/Laws/Decode.lean ====
section
/-! SUPPORT. Words and their bytes: what taking a word apart and putting it together again gives. -/

namespace Sys2Proof

/-- The three bytes of a 24-bit word, put together again. -/
theorem append_bytes24 (w : BitVec 24) :
    (w.extractLsb' 16 8 ++ w.extractLsb' 8 8 ++ w.extractLsb' 0 8 : BitVec 24) = w := by
  refine BitVec.eq_of_getLsbD_eq (fun i hi => ?_)
  simp only [BitVec.getLsbD_append, BitVec.getLsbD_extractLsb']
  by_cases h0 : i < 8
  · simp [h0]
  · by_cases h1 : i - 8 < 8
    · simp [h0, h1]
      congr 1
      omega
    · have h2 : i - 8 - 8 < 8 := by omega
      simp [h0, h1, h2]
      congr 1
      omega

/-- The four bytes of a 32-bit word, put together again. -/
theorem append_bytes32 (w : BitVec 32) :
    (w.extractLsb' 24 8 ++ w.extractLsb' 16 8 ++ w.extractLsb' 8 8 ++ w.extractLsb' 0 8 : BitVec 32) = w := by
  refine BitVec.eq_of_getLsbD_eq (fun i hi => ?_)
  simp only [BitVec.getLsbD_append, BitVec.getLsbD_extractLsb']
  by_cases h0 : i < 8
  · simp [h0]
  · by_cases h1 : i - 8 < 8
    · simp [h0, h1]
      congr 1
      omega
    · by_cases h2 : i - 8 - 8 < 8
      · simp [h0, h1, h2]
        congr 1
        omega
      · have h3 : i - 8 - 8 - 8 < 8 := by omega
        simp [h0, h1, h2, h3]
        congr 1
        omega

/-- The bytes of a 24-bit word from a track decode as the word (30_encoding.md R81). -/
@[simp] theorem decode_bytes24 (v : VoiceId) (w : BitVec 24) :
    decode (.track v) (bytes24 w) = .ok (decodeEV v w) := by
  simp only [bytes24, decode, append_bytes24]

/-- The bytes of a 32-bit word from the command port decode as the word (30_encoding.md R86). -/
@[simp] theorem decode_bytes32 (b : Bindings) (w : BitVec 32) :
    decode (.command b) (bytes32 w) = .ok (decodeCW b w) := by
  simp only [bytes32, decode, append_bytes32]

/-- The fields of a canonical event word are those it was packed from (30_encoding.md R81). -/
@[simp] theorem eventOfWord_wordOfEvent (e : Event) : eventOfWord (wordOfEvent e) = e := by
  obtain ⟨p, d⟩ := e
  simp only [eventOfWord, wordOfEvent, Event.mk.injEq]
  constructor <;> refine BitVec.eq_of_getLsbD_eq (fun i hi => ?_) <;>
    simp only [BitVec.getLsbD_append, BitVec.getLsbD_extractLsb']
  · simp [hi]
  · simp [hi]

/-- A 24-bit word is the canonical word of its fields (30_encoding.md R81). -/
@[simp] theorem wordOfEvent_eventOfWord (w : BitVec 24) : wordOfEvent (eventOfWord w) = w := by
  refine BitVec.eq_of_getLsbD_eq (fun i hi => ?_)
  simp only [eventOfWord, wordOfEvent, BitVec.getLsbD_append, BitVec.getLsbD_extractLsb']
  by_cases h : i < 8
  · simp [h]
  · have h2 : i - 8 < 16 := by omega
    simp [h, h2]
    congr 1
    omega

/-- What the class of a pitch byte is (30_encoding.md R82). -/
theorem pitchClass_spec (p : Byte) :
    (p.toNat < 128 → pitchClass p = .note (p.extractLsb' 0 7)) ∧ (p = 0xFF#8 → pitchClass p = .rest) ∧
    (128 ≤ p.toNat → p ≠ 0xFF#8 → pitchClass p = .rsvd p) := by
  revert p
  decide +kernel

@[simp] theorem pitchClass_note (pn : BitVec 7) : pitchClass (0#1 ++ pn) = .note pn := by
  revert pn
  decide +kernel

end Sys2Proof
end

