-- ==== Sys2Proof/Laws/State.lean ====
section
/-! SUPPORT. One lemma for each field of each update, so that no later proof unfolds a record update. -/

namespace Sys2Proof.Machine

/-! ## The voice file -/

@[simp] theorem VoiceFile.get_set_self (f : VoiceFile) (v : VoiceId) (vc : Voice) : (f.set v vc).get v = vc := by
  fin_cases v <;> rfl

theorem VoiceFile.get_set_ne (f : VoiceFile) {v w : VoiceId} (vc : Voice) (h : w ≠ v) :
    (f.set v vc).get w = f.get w := by
  fin_cases v <;> fin_cases w <;> first | rfl | exact absurd rfl h

theorem VoiceFile.get_set (f : VoiceFile) (v w : VoiceId) (vc : Voice) :
    (f.set v vc).get w = if w = v then vc else f.get w := by
  by_cases h : w = v
  · subst h; simp
  · simp [h, VoiceFile.get_set_ne]

@[simp] theorem VoiceFile.set_get_self (f : VoiceFile) (v : VoiceId) : f.set v (f.get v) = f := by
  fin_cases v <;> rfl

@[simp] theorem VoiceFile.get_cleared (v : VoiceId) : VoiceFile.cleared.get v = Voice.cleared := by
  fin_cases v <;> rfl

theorem VoiceFile.eq_of_get {f g : VoiceFile} (h : ∀ v, f.get v = g.get v) : f = g := by
  have h0 := h 0
  have h1 := h 1
  have h2 := h 2
  have h3 := h 3
  cases f
  cases g
  simp only [VoiceFile.get] at h0 h1 h2 h3
  simp [h0, h1, h2, h3]

/-! ## Voices of a block -/

@[simp] theorem Block.voice_setVoice_self (b : Block) (v : VoiceId) (vc : Voice) : (b.setVoice v vc).voice v = vc :=
  VoiceFile.get_set_self b.voices v vc

theorem Block.voice_setVoice_ne (b : Block) {v w : VoiceId} (vc : Voice) (h : w ≠ v) :
    (b.setVoice v vc).voice w = b.voice w :=
  VoiceFile.get_set_ne b.voices vc h

theorem Block.voice_setVoice (b : Block) (v w : VoiceId) (vc : Voice) :
    (b.setVoice v vc).voice w = if w = v then vc else b.voice w :=
  VoiceFile.get_set b.voices v w vc

section
variable (b : Block) (v : VoiceId) (vc : Voice)

@[simp] theorem Block.setVoice_voice_self : b.setVoice v (b.voice v) = b := by
  simp [Block.setVoice, Block.voice]

@[simp] theorem Block.setVoice_enabled : (b.setVoice v vc).enabled = b.enabled := rfl
@[simp] theorem Block.setVoice_channel : (b.setVoice v vc).channel = b.channel := rfl
@[simp] theorem Block.setVoice_trackCount : (b.setVoice v vc).trackCount = b.trackCount := rfl
@[simp] theorem Block.setVoice_samplesPerTick : (b.setVoice v vc).samplesPerTick = b.samplesPerTick := rfl
@[simp] theorem Block.setVoice_subCycleCounter : (b.setVoice v vc).subCycleCounter = b.subCycleCounter := rfl
@[simp] theorem Block.setVoice_sampleCounter : (b.setVoice v vc).sampleCounter = b.sampleCounter := rfl
@[simp] theorem Block.setVoice_bufferedSample : (b.setVoice v vc).bufferedSample = b.bufferedSample := rfl
@[simp] theorem Block.setVoice_voices : (b.setVoice v vc).voices = b.voices.set v vc := rfl

end

theorem Block.eq_of_voices {b b' : Block} (hs : b' = { b with voices := b'.voices })
    (hv : ∀ v, b'.voice v = b.voice v) : b' = b := by
  have : b'.voices = b.voices := VoiceFile.eq_of_get hv
  rw [hs, this]

/-! ## Voices of a state -/

section
variable (s : State) (v : VoiceId) (vc : Voice)

@[simp] theorem State.setVoice_config : (s.setVoice v vc).config = s.config := rfl
@[simp] theorem State.setVoice_block : (s.setVoice v vc).block = s.block.setVoice v vc := rfl
@[simp] theorem State.setVoice_input : (s.setVoice v vc).input = s.input := rfl
@[simp] theorem State.setVoice_invocations : (s.setVoice v vc).invocations = s.invocations := rfl
@[simp] theorem State.setVoice_out : (s.setVoice v vc).out = s.out := rfl
@[simp] theorem State.setVoice_results : (s.setVoice v vc).results = s.results := rfl

end

/-! ## The sink -/

section
variable (s : State) (d : Byte)

@[simp] theorem State.writeOut_config : (s.writeOut d).config = s.config := rfl
@[simp] theorem State.writeOut_block : (s.writeOut d).block = s.block := rfl
@[simp] theorem State.writeOut_input : (s.writeOut d).input = s.input := rfl
@[simp] theorem State.writeOut_invocations : (s.writeOut d).invocations = s.invocations := rfl
@[simp] theorem State.writeOut_out : (s.writeOut d).out = s.out ++ [⟨s.invocations, d, s.block.channel⟩] := rfl
@[simp] theorem State.writeOut_results : (s.writeOut d).results = s.results := rfl

end

/-! ## `StopClear` and `RESET` -/

section
variable (c : Config) (b : Block) (v : VoiceId)

@[simp] theorem stopClear_enabled : (stopClear b).enabled = b.enabled := rfl
@[simp] theorem stopClear_channel : (stopClear b).channel = b.channel := rfl
@[simp] theorem stopClear_trackCount : (stopClear b).trackCount = 0 := rfl
@[simp] theorem stopClear_samplesPerTick : (stopClear b).samplesPerTick = 0 := rfl
@[simp] theorem stopClear_subCycleCounter : (stopClear b).subCycleCounter = b.subCycleCounter := rfl
@[simp] theorem stopClear_sampleCounter : (stopClear b).sampleCounter = 0 := rfl
@[simp] theorem stopClear_bufferedSample : (stopClear b).bufferedSample = b.bufferedSample := rfl
@[simp] theorem stopClear_voices : (stopClear b).voices = VoiceFile.cleared := rfl
@[simp] theorem stopClear_voice : (stopClear b).voice v = Voice.cleared := VoiceFile.get_cleared v

theorem resetBlock_eq_atReset : resetBlock c b = Block.atReset c := rfl

@[simp] theorem atReset_enabled : (Block.atReset c).enabled = false := rfl
@[simp] theorem atReset_channel : (Block.atReset c).channel = 0 := rfl
@[simp] theorem atReset_trackCount : (Block.atReset c).trackCount = 0 := rfl
@[simp] theorem atReset_samplesPerTick : (Block.atReset c).samplesPerTick = 0 := rfl
@[simp] theorem atReset_subCycleCounter : (Block.atReset c).subCycleCounter = c.subcycles := rfl
@[simp] theorem atReset_sampleCounter : (Block.atReset c).sampleCounter = 0 := rfl
@[simp] theorem atReset_bufferedSample : (Block.atReset c).bufferedSample = c.mid := rfl
@[simp] theorem atReset_voice : (Block.atReset c).voice v = Voice.cleared := VoiceFile.get_cleared v

end

/-! ## Cleared and bound voices -/

@[simp] theorem cleared_seqState : Voice.cleared.seqState = .finished := rfl
@[simp] theorem cleared_currentPitch : Voice.cleared.currentPitch = pause := rfl
@[simp] theorem cleared_remainingTicks : Voice.cleared.remainingTicks = 0 := rfl
@[simp] theorem cleared_eventCursor : Voice.cleared.eventCursor = 0 := rfl
@[simp] theorem cleared_eventCount : Voice.cleared.eventCount = 0 := rfl
@[simp] theorem cleared_phaseIndex : Voice.cleared.phaseIndex = 0 := rfl
@[simp] theorem cleared_phaseFraction : Voice.cleared.phaseFraction = 0 := rfl
@[simp] theorem cleared_track : Voice.cleared.track = none := rfl

section
variable (t : Track)

@[simp] theorem boundVoice_seqState : (boundVoice t).seqState = .priming := rfl
@[simp] theorem boundVoice_currentPitch : (boundVoice t).currentPitch = pause := rfl
@[simp] theorem boundVoice_remainingTicks : (boundVoice t).remainingTicks = 0 := rfl
@[simp] theorem boundVoice_eventCursor : (boundVoice t).eventCursor = 0 := rfl
@[simp] theorem boundVoice_eventCount : (boundVoice t).eventCount = trackLength t := rfl
@[simp] theorem boundVoice_phaseIndex : (boundVoice t).phaseIndex = 0 := rfl
@[simp] theorem boundVoice_phaseFraction : (boundVoice t).phaseFraction = 0 := rfl
@[simp] theorem boundVoice_track : (boundVoice t).track = some t := rfl

end

/-! ## Loading an event, and finishing -/

section
variable (p : Byte) (vc : Voice)

@[simp] theorem loadPitch_seqState : (loadPitch p vc).seqState = vc.seqState := rfl
@[simp] theorem loadPitch_currentPitch : (loadPitch p vc).currentPitch = p := rfl
@[simp] theorem loadPitch_remainingTicks : (loadPitch p vc).remainingTicks = vc.remainingTicks := rfl
@[simp] theorem loadPitch_eventCursor : (loadPitch p vc).eventCursor = vc.eventCursor + 1 := rfl
@[simp] theorem loadPitch_eventCount : (loadPitch p vc).eventCount = vc.eventCount := rfl
@[simp] theorem loadPitch_phaseIndex : (loadPitch p vc).phaseIndex = vc.phaseIndex := rfl
@[simp] theorem loadPitch_phaseFraction : (loadPitch p vc).phaseFraction = vc.phaseFraction := rfl
@[simp] theorem loadPitch_track : (loadPitch p vc).track = vc.track := rfl

@[simp] theorem waitFor_seqState (d : Half) : (waitFor d vc).seqState = vc.seqState := rfl
@[simp] theorem waitFor_currentPitch (d : Half) : (waitFor d vc).currentPitch = vc.currentPitch := rfl
@[simp] theorem waitFor_remainingTicks (d : Half) : (waitFor d vc).remainingTicks = d := rfl
@[simp] theorem waitFor_eventCursor (d : Half) : (waitFor d vc).eventCursor = vc.eventCursor := rfl
@[simp] theorem waitFor_eventCount (d : Half) : (waitFor d vc).eventCount = vc.eventCount := rfl
@[simp] theorem waitFor_phaseIndex (d : Half) : (waitFor d vc).phaseIndex = vc.phaseIndex := rfl
@[simp] theorem waitFor_phaseFraction (d : Half) : (waitFor d vc).phaseFraction = vc.phaseFraction := rfl
@[simp] theorem waitFor_track (d : Half) : (waitFor d vc).track = vc.track := rfl

@[simp] theorem finishVoice_seqState : (finishVoice vc).seqState = .finished := rfl
@[simp] theorem finishVoice_currentPitch : (finishVoice vc).currentPitch = pause := rfl
@[simp] theorem finishVoice_remainingTicks : (finishVoice vc).remainingTicks = vc.remainingTicks := rfl
@[simp] theorem finishVoice_eventCursor : (finishVoice vc).eventCursor = vc.eventCursor := rfl
@[simp] theorem finishVoice_eventCount : (finishVoice vc).eventCount = vc.eventCount := rfl
@[simp] theorem finishVoice_phaseIndex : (finishVoice vc).phaseIndex = vc.phaseIndex := rfl
@[simp] theorem finishVoice_phaseFraction : (finishVoice vc).phaseFraction = vc.phaseFraction := rfl
@[simp] theorem finishVoice_track : (finishVoice vc).track = vc.track := rfl

end

/-! ## Advancing the phase -/

section
variable (c : Config) (vc : Voice) (p : BitVec 7)

@[simp] theorem advance_seqState : (advance c vc p).seqState = vc.seqState := rfl
@[simp] theorem advance_currentPitch : (advance c vc p).currentPitch = vc.currentPitch := rfl
@[simp] theorem advance_remainingTicks : (advance c vc p).remainingTicks = vc.remainingTicks := rfl
@[simp] theorem advance_eventCursor : (advance c vc p).eventCursor = vc.eventCursor := rfl
@[simp] theorem advance_eventCount : (advance c vc p).eventCount = vc.eventCount := rfl
@[simp] theorem advance_track : (advance c vc p).track = vc.track := rfl

end

end Sys2Proof.Machine
end

