-- ==== Sys2Proof/Laws/Ops.lean ====
section
/-! SUPPORT. For each shared operation, one lemma that says what it can do. -/

namespace Sys2Proof.Machine

/-! ## The active voices -/

@[simp] theorem mem_activeVoices (n : Fin 5) (v : VoiceId) : v ∈ activeVoices n ↔ v.val < n.val := by
  revert n v; decide

theorem activeVoices_nodup (n : Fin 5) : (activeVoices n).Nodup := by
  revert n; decide

@[simp] theorem length_activeVoices (n : Fin 5) : (activeVoices n).length = n.val := by
  revert n; decide

theorem Block.isPlaying_iff (b : Block) :
    b.isPlaying = true ↔ ∃ v : VoiceId, b.active v ∧ (b.voice v).seqState ≠ .finished := by
  simp [Block.isPlaying, Block.finished, Block.voice]

theorem Block.allFinished_iff (b : Block) :
    b.allFinished = true ↔ ∀ v : VoiceId, b.active v → (b.voice v).seqState = .finished := by
  simp [Block.allFinished, Block.finished, Block.voice]

/-! ## Events -/

/-- Loading an event writes its pitch byte, whatever its class, and moves the cursor (43_track_sequencer.md R131 to
R133). -/
theorem loadEvent_eq (e : Event) (vc : Voice) : loadEvent e vc = loadPitch e.pitch vc := by
  unfold loadEvent pitchClass
  split
  · rename_i h
    split at h
    · cases h
    · split at h
      · cases h
      · rename_i h1 h2
        cases h
        have : (0#1 ++ e.pitch.extractLsb' 0 7 : BitVec 8) = e.pitch := by
          revert h2
          generalize e.pitch = p
          revert p
          decide
        simp [loadNote, this]
  · rename_i h
    split at h
    · rename_i h1; simp [loadRest, h1]
    · split at h <;> cases h
  · rename_i h
    split at h
    · cases h
    · split at h
      · cases h; rfl
      · cases h

/-! ## Track reads -/

/-- What a track read answers: the element of the bound track, below the event count. -/
theorem readEvent_eq_some {vc : Voice} {i : Half} {e : Event} :
    readEvent vc i = some e ↔
      ∃ t, vc.track = some t ∧ i.toNat < vc.eventCount.toNat ∧ t.events[i.toNat]? = some e := by
  unfold readEvent
  cases h : vc.track with
  | none => simp
  | some t => simp

theorem readTrkd_eq_some {vc : Voice} {i d : Half} :
    readTrkd vc i = some d ↔ ∃ e, readEvent vc i = some e ∧ e.delay = d := by
  simp [readTrkd]

theorem readTrkp_eq_some {vc : Voice} {i : Half} {p : Byte} :
    readTrkp vc i = some p ↔ ∃ e, readEvent vc i = some e ∧ e.pitch = p := by
  simp [readTrkp]

/-- A track read depends on the binding and the event count alone. -/
theorem readEvent_congr {a b : Voice} (ht : a.track = b.track) (hc : a.eventCount = b.eventCount) (i : Half) :
    readEvent a i = readEvent b i := by
  simp [readEvent, ht, hc]

@[simp] theorem readEvent_loadPitch (p : Byte) (vc : Voice) (i : Half) :
    readEvent (loadPitch p vc) i = readEvent vc i := rfl

@[simp] theorem readEvent_waitFor (d : Half) (vc : Voice) (i : Half) :
    readEvent (waitFor d vc) i = readEvent vc i := rfl

@[simp] theorem toNat_trackLength (t : Track) : (trackLength t).toNat = t.events.length := by
  have := t.fits
  simp [trackLength]
  omega

/-- In a well-formed track space every index below the event count is readable (20_memory.md R61). -/
theorem readEvent_isSome {vc : Voice} (hw : trackSpaceWf vc = true) {i : Half}
    (hi : i.toNat < vc.eventCount.toNat) : ∃ e, readEvent vc i = some e := by
  unfold trackSpaceWf at hw
  cases ht : vc.track with
  | none => simp [ht] at hw; omega
  | some t =>
    simp [ht] at hw
    exact ⟨t.events[i.toNat]'(by omega), readEvent_eq_some.2 ⟨t, ht, hi, by simp⟩⟩

/-! ## `Consume` -/

/-- Below the event count the cursor's increment does not wrap (10_state.md R28). -/
theorem toNat_cursor_succ {i n : Half} (h : i.toNat < n.toNat) : (i + 1).toNat = i.toNat + 1 := by
  have := n.isLt
  rw [BitVec.toNat_add]
  simp
  omega

/-- What the loop of `Consume` can do (43_track_sequencer.md R136): it ends Finished past the last event, or waits for
an event that is still to come; the phase, the binding and the count stay, and the cursor has moved on. -/
theorem consumeLoop_spec {v : VoiceId} {n : Nat} {vc vc' : Voice} (h : consumeLoop v n vc = .ok vc') :
    SamePhase vc' vc ∧ vc'.eventCount = vc.eventCount ∧ vc'.track = vc.track ∧
    vc.eventCursor.toNat < vc'.eventCursor.toNat ∧ vc'.eventCursor.toNat ≤ vc.eventCount.toNat ∧
    ((vc'.seqState = .finished ∧ vc'.currentPitch = pause ∧ vc'.eventCursor = vc.eventCount) ∨
     (vc'.seqState = vc.seqState ∧ vc'.remainingTicks ≠ 0 ∧ vc'.eventCursor.toNat < vc.eventCount.toNat ∧
      readTrkp vc (vc'.eventCursor - 1) = some vc'.currentPitch ∧
      readTrkd vc vc'.eventCursor = some vc'.remainingTicks)) := by
  induction n generalizing vc with
  | zero => simp [consumeLoop] at h
  | succ n ih =>
    rw [consumeLoop] at h
    cases he : readEvent vc vc.eventCursor with
    | none => simp [he] at h
    | some e =>
      obtain ⟨t, ht, hlt, hget⟩ := readEvent_eq_some.1 he
      have hc := toNat_cursor_succ hlt
      simp only [he, loadEvent_eq, loadPitch_eventCursor, loadPitch_eventCount] at h
      split at h
      · rename_i hend
        cases h
        refine ⟨by simp [SamePhase], rfl, rfl, ?_, ?_, .inl ⟨rfl, rfl, hend⟩⟩ <;>
          simp only [finishVoice_eventCursor, loadPitch_eventCursor] <;> omega
      · rename_i hend
        have hne : vc.eventCursor.toNat + 1 ≠ vc.eventCount.toNat := fun hq =>
          hend (BitVec.eq_of_toNat_eq (by omega))
        split at h
        · cases h
        · rename_i d hd
          split at h
          · rename_i hd0
            cases h
            refine ⟨by simp [SamePhase], rfl, rfl, ?_, ?_, .inr ⟨rfl, hd0, ?_, ?_, hd⟩⟩
            · simp only [waitFor_eventCursor, loadPitch_eventCursor]; omega
            · simp only [waitFor_eventCursor, loadPitch_eventCursor]; omega
            · simp only [waitFor_eventCursor, loadPitch_eventCursor]; omega
            · exact readTrkp_eq_some.2 ⟨e, by simpa using he, rfl⟩
          · obtain ⟨hp, hcnt, htr, hlt', hle', hcase⟩ := ih h
            exact ⟨hp, hcnt, htr, by simp only [waitFor_eventCursor, loadPitch_eventCursor] at hlt'; omega, hle', hcase⟩

/-- In a well-formed track space the loop reads no element that does not exist, if it starts below the end and has fuel
for the events left (20_memory.md R61). -/
theorem consumeLoop_completes {v : VoiceId} {n : Nat} {vc : Voice} (hw : trackSpaceWf vc = true)
    (hlt : vc.eventCursor.toNat < vc.eventCount.toNat)
    (hn : vc.eventCount.toNat - vc.eventCursor.toNat ≤ n) : ∃ vc', consumeLoop v n vc = .ok vc' := by
  induction n generalizing vc with
  | zero => omega
  | succ n ih =>
    obtain ⟨e, he⟩ := readEvent_isSome hw hlt
    have hc := toNat_cursor_succ hlt
    rw [consumeLoop]
    simp only [he, loadEvent_eq, loadPitch_eventCursor, loadPitch_eventCount]
    split
    · exact ⟨_, rfl⟩
    · rename_i hend
      have hne : vc.eventCursor.toNat + 1 ≠ vc.eventCount.toNat := fun hq =>
        hend (BitVec.eq_of_toNat_eq (by omega))
      obtain ⟨e', he'⟩ := readEvent_isSome hw (i := vc.eventCursor + 1) (by omega)
      simp only [readTrkd, readEvent_loadPitch, he', Option.map_some]
      split
      · exact ⟨_, rfl⟩
      · refine ih hw ?_ ?_ <;>
          simp only [waitFor_eventCursor, waitFor_eventCount, loadPitch_eventCursor, loadPitch_eventCount] <;> omega

/-- One turn of `Consume` (43_track_sequencer.md R136): load the event at the cursor, and go on from there. -/
theorem consume_eq_afterLoad {v : VoiceId} {vc : Voice} {e : Event} (he : readEvent vc vc.eventCursor = some e) :
    consume v vc = afterLoad v (loadPitch e.pitch vc) := by
  obtain ⟨t, -, hlt, -⟩ := readEvent_eq_some.1 he
  have hc := toNat_cursor_succ hlt
  have hf : vc.eventCount.toNat - vc.eventCursor.toNat =
      (vc.eventCount.toNat - (vc.eventCursor + 1).toNat) + 1 := by omega
  rw [consume, hf, consumeLoop]
  simp only [he, loadEvent_eq]
  rfl

/-- The Playing tick (43_track_sequencer.md R135), by the count it finds. -/
theorem playingTick_eq (v : VoiceId) (vc : Voice) :
    playingTick v vc = if vc.remainingTicks.toNat ≤ 1 then consume v (waitFor 0 vc)
      else .ok (waitFor (vc.remainingTicks - 1) vc) := by
  unfold playingTick
  by_cases h0 : vc.remainingTicks = 0
  · have hw : waitFor 0 vc = vc := by rw [← h0]; rfl
    simp only [h0, hw]
    simp [h0]
  · by_cases h1 : vc.remainingTicks = 1
    · simp [h1]
    · have ha : vc.remainingTicks - 1 ≠ 0 := by bv_omega
      have hb : ¬ vc.remainingTicks.toNat ≤ 1 := by bv_omega
      simp only
      rw [if_pos h0, if_neg hb, if_neg (by exact ha)]

/-- What a tick of a voice can do (43_track_sequencer.md R130): the phase, the binding and the count stay, the cursor
never moves back. -/
theorem tickVoice_spec {v : VoiceId} {vc vc' : Voice} (h : tickVoice v vc = .ok vc') :
    SamePhase vc' vc ∧ vc'.eventCount = vc.eventCount ∧ vc'.track = vc.track ∧
    vc.eventCursor.toNat ≤ vc'.eventCursor.toNat := by
  unfold tickVoice at h
  split at h
  · unfold primingTick at h
    simp only at h
    split at h
    · cases h; simp [SamePhase]
    · split at h
      · cases h
      · cases h; simp [SamePhase]
  · unfold playingTick consume at h
    simp only at h
    split at h
    · split at h
      · obtain ⟨hp, hc, ht, hlt, -, -⟩ := consumeLoop_spec h
        exact ⟨hp, hc, ht, hlt.le⟩
      · cases h; simp [SamePhase]
    · split at h
      · obtain ⟨hp, hc, ht, hlt, -, -⟩ := consumeLoop_spec h
        exact ⟨hp, hc, ht, hlt.le⟩
      · cases h; simp [SamePhase]
  · cases h; simp [SamePhase]

/-- A tick keeps a voice of a session consistent (10_state.md R39 (d), (e)). -/
theorem tickVoice_consistent {v : VoiceId} {vc vc' : Voice} (hc : VoiceConsistent vc)
    (h : tickVoice v vc = .ok vc') : VoiceConsistent vc' := by
  obtain ⟨h1, h2, h3, h4, h5, h6⟩ := hc
  obtain ⟨-, hcnt, htr, -⟩ := tickVoice_spec h
  refine ⟨by rw [htr]; exact h1, by simpa [trackSpaceWf, htr, hcnt] using h2, ?_⟩
  unfold tickVoice at h
  split at h
  · rename_i hs
    unfold primingTick at h
    simp only at h
    split at h
    · cases h
      exact ⟨h3, by simp, by simp, fun _ => rfl⟩
    · rename_i hn
      split at h
      · cases h
      · cases h
        refine ⟨h3, fun _ => ?_, by simp, by simp⟩
        simp only [h5 hs]
        exact Nat.pos_of_ne_zero (fun hz => hn (BitVec.eq_of_toNat_eq hz))
  · rename_i hs
    rw [playingTick_eq] at h
    split at h
    · obtain ⟨-, ec, -, -, hle, hcase⟩ := consumeLoop_spec h
      simp only [waitFor_eventCount] at ec hle hcase
      rcases hcase with ⟨d1, d2, d3⟩ | ⟨d1, -, d3, -⟩
      · exact ⟨by rw [d3, ec], by simp [d1], by simp [d1], fun _ => by rw [d2]; rfl⟩
      · have hp : vc'.seqState = .playing := d1.trans hs
        exact ⟨by rw [ec]; exact hle, fun _ => by rw [ec]; exact d3, by simp [hp], by simp [hp]⟩
    · cases h
      exact ⟨h3, h4, h5, h6⟩
  · cases h
    exact ⟨h3, h4, h5, h6⟩

/-- A tick of a consistent voice reads no track element that does not exist (20_memory.md R61). -/
theorem tickVoice_completes (v : VoiceId) {vc : Voice} (hc : VoiceConsistent vc) :
    ∃ vc', tickVoice v vc = .ok vc' := by
  obtain ⟨-, h2, -, h4, -, -⟩ := hc
  unfold tickVoice
  split
  · unfold primingTick
    simp only
    split
    · exact ⟨_, rfl⟩
    · rename_i hn
      obtain ⟨e, he⟩ := readEvent_isSome h2 (i := 0)
        (Nat.pos_of_ne_zero (fun hz => hn (BitVec.eq_of_toNat_eq hz)))
      have hd : readTrkd { vc with currentPitch := pause } 0 = some e.delay := readTrkd_eq_some.2 ⟨e, he, rfl⟩
      rw [hd]
      exact ⟨_, rfl⟩
  · rename_i hs
    rw [playingTick_eq]
    split
    · exact consumeLoop_completes h2 (h4 hs) le_rfl
    · exact ⟨_, rfl⟩
  · exact ⟨_, rfl⟩

/-! ## The tick pass over voices -/

/-- What ticking a list of voices can do (45_scheduler.md R163): each of them is ticked from the registers it had, no
other voice and no other register changes. -/
theorem tickVoices_spec {vs : List VoiceId} {b b' : Block} (hd : vs.Nodup) (h : tickVoices vs b = .ok b') :
    (∀ v ∈ vs, tickVoice v (b.voice v) = .ok (b'.voice v)) ∧ (∀ v, v ∉ vs → b'.voice v = b.voice v) ∧
    b' = { b with voices := b'.voices } := by
  induction vs generalizing b with
  | nil => cases h; simp
  | cons w vs ih =>
    rw [tickVoices] at h
    split at h
    · cases h
    · rename_i vc hvc
      obtain ⟨hw, hd⟩ := List.nodup_cons.1 hd
      obtain ⟨h1, h2, h3⟩ := ih hd h
      refine ⟨?_, ?_, ?_⟩
      · intro v hv
        rcases List.mem_cons.1 hv with rfl | hv
        · rw [h2 v hw, Block.voice_setVoice_self, hvc]
        · have hne : v ≠ w := fun hq => hw (hq ▸ hv)
          rw [← h1 v hv, Block.voice_setVoice_ne _ _ hne]
      · intro v hv
        rw [List.mem_cons, not_or] at hv
        rw [h2 v hv.2, Block.voice_setVoice_ne _ _ hv.1]
      · rw [h3]; rfl

/-- Ticking a list of voices completes when each of its ticks does. -/
theorem tickVoices_completes {vs : List VoiceId} {b : Block} (hd : vs.Nodup)
    (h : ∀ v ∈ vs, ∃ vc, tickVoice v (b.voice v) = .ok vc) : ∃ b', tickVoices vs b = .ok b' := by
  induction vs generalizing b with
  | nil => exact ⟨b, rfl⟩
  | cons w vs ih =>
    obtain ⟨hw, hd⟩ := List.nodup_cons.1 hd
    obtain ⟨vc, hvc⟩ := h w (by simp)
    rw [tickVoices, hvc]
    refine ih hd (fun v hv => ?_)
    have hne : v ≠ w := fun hq => hw (hq ▸ hv)
    rw [Block.voice_setVoice_ne _ _ hne]
    exact h v (by simp [hv])

/-! ## The mixer -/

/-- What sampling a list of voices does (44_mixer.md R150): each is sampled from the registers it had and its amplitude
is added; no other voice and no other register changes. -/
theorem sumVoices_spec (c : Config) {vs : List VoiceId} (b : Block) (sum : BitVec 10) (hd : vs.Nodup) :
    (∀ v ∈ vs, (sumVoices c vs b sum).1.voice v = (voiceSample c (b.voice v)).1) ∧
    (∀ v, v ∉ vs → (sumVoices c vs b sum).1.voice v = b.voice v) ∧
    (sumVoices c vs b sum).1 = { b with voices := (sumVoices c vs b sum).1.voices } ∧
    (sumVoices c vs b sum).2 = sum + BitVec.ofNat 10 ((vs.map (fun v => (voiceSample c (b.voice v)).2.toNat)).sum) := by
  induction vs generalizing b sum with
  | nil => simp [sumVoices]
  | cons w vs ih =>
    obtain ⟨hw, hd⟩ := List.nodup_cons.1 hd
    obtain ⟨h1, h2, h3, h4⟩ := ih (b.setVoice w (voiceSample c (b.voice w)).1)
      (sum + (voiceSample c (b.voice w)).2.zeroExtend 10) hd
    have hne : ∀ v ∈ vs, (b.setVoice w (voiceSample c (b.voice w)).1).voice v = b.voice v := fun v hv =>
      Block.voice_setVoice_ne _ _ (fun hq => hw (hq ▸ hv))
    simp only [sumVoices]
    refine ⟨?_, ?_, ?_, ?_⟩
    · intro v hv
      rcases List.mem_cons.1 hv with rfl | hv
      · rw [h2 v hw, Block.voice_setVoice_self]
      · rw [h1 v hv, hne v hv]
    · intro v hv
      rw [List.mem_cons, not_or] at hv
      rw [h2 v hv.2, Block.voice_setVoice_ne _ _ hv.1]
    · rw [h3]; rfl
    · rw [h4]
      have hmap : vs.map (fun v => (voiceSample c ((b.setVoice w (voiceSample c (b.voice w)).1).voice v)).2.toNat) =
          vs.map (fun v => (voiceSample c (b.voice v)).2.toNat) :=
        List.map_congr_left (fun v hv => by rw [hne v hv])
      rw [hmap, List.map_cons, List.sum_cons]
      apply BitVec.eq_of_toNat_eq
      simp [BitVec.toNat_add]
      omega

/-- Sampling a voice leaves its sequencer registers (42_oscillator.md R122). -/
theorem voiceSample_sequencer (c : Config) (vc : Voice) : SameSequencer (voiceSample c vc).1 vc := by
  unfold voiceSample
  split <;> simp [SameSequencer]

/-- The divisor table is one division, rounded down (44_mixer.md R151), for every sum of `n` bytes. -/
theorem mixScale_toNat (c : Config) {n : Fin 5} {total : Nat} (hn : n ≠ 0) (ht : total ≤ n.val * 255) :
    (mixScale c n (BitVec.ofNat 10 total)).toNat = total / n.val := by
  revert hn ht
  match n with
  | 0 => intro h; exact absurd rfl h
  | 1 => intro _ h; simp [mixScale] at *; omega
  | 2 => intro _ h; simp [mixScale, Nat.shiftRight_eq_div_pow] at *; omega
  | 3 => intro _ h; simp [mixScale] at *; omega
  | 4 => intro _ h; simp [mixScale, Nat.shiftRight_eq_div_pow] at *; omega

/-- The amplitude a mix returns, from the exact sum of the active voices' amplitudes (44_mixer.md R150). -/
theorem mix_snd (c : Config) (b : Block) :
    (mix c b).2 = mixScale c b.trackCount (BitVec.ofNat 10 (amplitudeSum c b)) := by
  obtain ⟨-, -, -, h⟩ := sumVoices_spec c b 0 (activeVoices_nodup b.trackCount)
  simp only [mix]
  rw [h, zero_add]
  rfl

/-! ## `PLAY`'s binding loop -/

/-- What binding a list of voices does (46_control_commands.md R173). -/
theorem bindVoices_spec (tracks : List Track) {vs : List VoiceId} (f : VoiceFile) (v : VoiceId) :
    (bindVoices tracks vs f).get v = if v ∈ vs then boundVoice (trackOperand tracks v) else f.get v := by
  induction vs generalizing f with
  | nil => simp [bindVoices]
  | cons w vs ih =>
    rw [bindVoices, ih]
    by_cases hv : v ∈ vs
    · simp [hv]
    · by_cases hw : v = w
      · subst hw; simp
      · simp [hv, hw, VoiceFile.get_set_ne]

@[simp] theorem startSession_voice (c : Config) (tracks : List Track) (n : Fin 5) (spt : Half) (b : Block)
    (v : VoiceId) : (startSession c tracks n spt b).voice v =
      if v.val < n.val then boundVoice (trackOperand tracks v) else Voice.cleared := by
  simp [startSession, Block.voice, bindVoices_spec]

end Sys2Proof.Machine
end

