-- ==== Sys2Proof/Laws/Memory.lean ====
section
/-! SUPPORT. Every memory operation keeps the form of memory (`Memory.wf`), and reset has it. -/

namespace Sys2Proof.Machine

theorem memory_wf_iff (b : Block) : Memory.wf b = true ↔ ∀ v, trackSpaceWf (b.voice v) = true := by
  constructor
  · intro h v
    simp only [Memory.wf, Bool.and_eq_true] at h
    obtain ⟨⟨⟨h0, h1⟩, h2⟩, h3⟩ := h
    fin_cases v <;> assumption
  · intro h
    simp only [Memory.wf, Bool.and_eq_true]
    exact ⟨⟨⟨h 0, h 1⟩, h 2⟩, h 3⟩

/-- The form of a voice's track spaces depends on its binding and event count alone. -/
theorem trackSpaceWf_congr {a b : Voice} (ht : a.track = b.track) (hc : a.eventCount = b.eventCount) :
    trackSpaceWf a = trackSpaceWf b := by
  simp [trackSpaceWf, ht, hc]

@[simp] theorem trackSpaceWf_cleared : trackSpaceWf Voice.cleared = true := rfl

@[simp] theorem trackSpaceWf_boundVoice (t : Track) : trackSpaceWf (boundVoice t) = true := by
  simp [trackSpaceWf]

theorem memory_wf_atReset (c : Config) : Memory.wf (Block.atReset c) = true :=
  (memory_wf_iff _).2 (fun v => by simp)

theorem memory_wf_reset : Memory.wf State.reset.block = true := memory_wf_atReset _

theorem memory_wf_stopClear (b : Block) : Memory.wf (stopClear b) = true :=
  (memory_wf_iff _).2 (fun v => by simp)

theorem memory_wf_startSession (c : Config) (tracks : List Track) (n : Fin 5) (spt : Half) (b : Block) :
    Memory.wf (startSession c tracks n spt b) = true :=
  (memory_wf_iff _).2 (fun v => by rw [startSession_voice]; split <;> simp)

theorem memory_wf_tickVoices {vs : List VoiceId} {b b' : Block} (hd : vs.Nodup) (h : tickVoices vs b = .ok b')
    (hw : Memory.wf b = true) : Memory.wf b' = true := by
  rw [memory_wf_iff] at hw ⊢
  obtain ⟨h1, h2, -⟩ := tickVoices_spec hd h
  intro v
  by_cases hv : v ∈ vs
  · obtain ⟨-, hc, ht, -⟩ := tickVoice_spec (h1 v hv)
    rw [trackSpaceWf_congr ht hc]
    exact hw v
  · rw [h2 v hv]
    exact hw v

theorem memory_wf_sumVoices (c : Config) {vs : List VoiceId} (b : Block) (sum : BitVec 10) (hd : vs.Nodup)
    (hw : Memory.wf b = true) : Memory.wf (sumVoices c vs b sum).1 = true := by
  rw [memory_wf_iff] at hw ⊢
  obtain ⟨h1, h2, -⟩ := sumVoices_spec c b sum hd
  intro v
  by_cases hv : v ∈ vs
  · rw [h1 v hv]
    obtain ⟨-, -, -, -, hc, ht⟩ := voiceSample_sequencer c (b.voice v)
    rw [trackSpaceWf_congr ht hc]
    exact hw v
  · rw [h2 v hv]
    exact hw v

end Sys2Proof.Machine
end

