-- ==== Sys2Proof/Laws/PerInstr.lean ====
section
/-! SUPPORT. Statements made for each instruction: a family's statement, and one lemma for each constructor. -/

namespace Sys2Proof.Laws

/-- How many bytes a word of a source's format has (30_encoding.md R80). -/
def formatBytes : Source → Nat
  | .track _ => 3
  | .command _ => 4
  | .strobe => 1

/-- The encoding of an instruction has the length of its format. -/
def EncodedLength.Statement (i : Instr) : Prop := (encode i).length = formatBytes i.source

theorem EncodedLength.note (v : VoiceId) (pn : BitVec 7) (delay : Half) :
    EncodedLength.Statement (.note v pn delay) := rfl

theorem EncodedLength.rest (v : VoiceId) (delay : Half) : EncodedLength.Statement (.rest v delay) := rfl

theorem EncodedLength.rsvd (v : VoiceId) (pitch : Byte) (delay : Half) :
    EncodedLength.Statement (.rsvd v pitch delay) := rfl

theorem EncodedLength.init (chan : Byte) : EncodedLength.Statement (.init chan) := rfl

theorem EncodedLength.play (tracks : List Track) (count : Byte) (spt : Half) :
    EncodedLength.Statement (.play tracks count spt) := rfl

theorem EncodedLength.stop : EncodedLength.Statement .stop := rfl

theorem EncodedLength.isPlaying : EncodedLength.Statement .isPlaying := rfl

theorem EncodedLength.invoke : EncodedLength.Statement .invoke := rfl

theorem EncodedLength.reset : EncodedLength.Statement .reset := rfl

end Sys2Proof.Laws
end

