-- ==== Sys2Proof/Laws/Step.lean ====
section
/-! SUPPORT. What the scheduler's two branches, an `INVOKE` and a step can do. -/

namespace Sys2Proof.Machine

/-- What the sample step does to the registers (45_scheduler.md R161). -/
theorem sampleStep_spec (c : Config) (b : Block) :
    sampleStep c b = { b with
      subCycleCounter := c.subcycles
      bufferedSample := mixScale c b.trackCount (BitVec.ofNat 10 (amplitudeSum c b))
      sampleCounter := if b.trackCount = 0 then b.sampleCounter else b.sampleCounter - 1
      voices := (sampleStep c b).voices } ∧
    (∀ v, (sampleStep c b).voice v = if b.active v then (voiceSample c (b.voice v)).1 else b.voice v) := by
  obtain ⟨h1, h2, h3, h4⟩ := sumVoices_spec c { b with subCycleCounter := c.subcycles } 0
    (activeVoices_nodup b.trackCount)
  have hsum : sampleStep c b = (
      let r := sumVoices c (activeVoices b.trackCount) { b with subCycleCounter := c.subcycles } 0
      let b2 : Block := { r.1 with bufferedSample := mixScale c b.trackCount r.2 }
      if b2.trackCount ≠ 0 then { b2 with sampleCounter := b2.sampleCounter - 1 } else b2) := rfl
  rcases hp : sumVoices c (activeVoices b.trackCount) { b with subCycleCounter := c.subcycles } 0 with ⟨b1, sum⟩
  rw [hp] at hsum h1 h2 h3 h4
  obtain ⟨e1, e2, e3, e4, e5, e6, e7, vs⟩ := b1
  simp only [Block.mk.injEq, and_true] at h3
  obtain ⟨rfl, rfl, rfl, rfl, rfl, rfl, rfl⟩ := h3
  have hs : sum = BitVec.ofNat 10 (amplitudeSum c b) := by simpa [Block.voice, amplitudeSum] using h4
  have hv : (sampleStep c b).voices = vs := by
    rw [hsum]
    dsimp only
    split <;> rfl
  refine ⟨?_, fun v => ?_⟩
  · rw [hv, hsum, hs]
    dsimp only
    by_cases h0 : b.trackCount = 0
    · simp [h0]
    · simp [h0]
  · have hvo : (sampleStep c b).voice v = vs.get v := by rw [Block.voice, hv]
    rw [hvo]
    split
    · rename_i ha
      exact h1 v ((mem_activeVoices _ _).2 ha)
    · rename_i ha
      exact h2 v (fun hm => ha ((mem_activeVoices _ _).1 hm))

/-- What a tick pass can do (45_scheduler.md R163, R164): tick every active voice, reload the sample counter, and end
the session if it finds every active voice Finished. -/
theorem tickPass_spec {b b' : Block} (h : tickPass b = .ok b') :
    ∃ b1 : Block, b1 = { b with sampleCounter := b.samplesPerTick, voices := b1.voices } ∧
      (∀ v, b.active v → tickVoice v (b.voice v) = .ok (b1.voice v)) ∧
      (∀ v, ¬ b.active v → b1.voice v = b.voice v) ∧
      (((∀ v, b.active v → (b1.voice v).seqState = .finished) ∧ b' = stopClear b1) ∨
       ((∃ v, b.active v ∧ (b1.voice v).seqState ≠ .finished) ∧ b' = b1)) := by
  unfold tickPass at h
  split at h
  · cases h
  · rename_i b1 hb1
    obtain ⟨h1, h2, h3⟩ := tickVoices_spec (activeVoices_nodup _) hb1
    have htc : b1.trackCount = b.trackCount := by rw [h3]
    refine ⟨b1, h3, fun v hv => h1 v ((mem_activeVoices _ _).2 hv),
      fun v hv => h2 v (fun hm => hv ((mem_activeVoices _ _).1 hm)), ?_⟩
    by_cases hf : b1.allFinished = true
    · rw [if_pos hf] at h
      cases h
      simp only [Block.allFinished_iff, Block.active, htc] at hf
      exact .inl ⟨hf, rfl⟩
    · rw [if_neg hf] at h
      cases h
      simp only [Block.allFinished_iff, Block.active, htc] at hf
      push Not at hf
      exact .inr ⟨hf, rfl⟩

/-- What an `INVOKE` can do (45_scheduler.md R160): nothing while disabled, a sample step, a tick pass, or the bare
count of a sub-cycle. -/
theorem execInvoke_cases {s t : State} (h : execInvoke s = .next t) :
    (s.block.enabled = false ∧ t = { s with invocations := s.invocations + 1 }) ∨
    (s.block.enabled = true ∧ s.block.subCycleCounter = 1 ∧
      t = { s with
        invocations := s.invocations + 1
        out := s.out ++ [⟨s.invocations + 1, s.block.bufferedSample, s.block.channel⟩]
        block := sampleStep s.config { s.block with subCycleCounter := 0 } }) ∨
    (s.block.enabled = true ∧ s.block.subCycleCounter ≠ 1 ∧ s.block.trackCount ≠ 0 ∧ s.block.sampleCounter = 0 ∧
      ∃ b1, tickPass { s.block with subCycleCounter := s.block.subCycleCounter - 1 } = .ok b1 ∧
        t = { s with invocations := s.invocations + 1, block := b1 }) ∨
    (s.block.enabled = true ∧ s.block.subCycleCounter ≠ 1 ∧ (s.block.trackCount = 0 ∨ s.block.sampleCounter ≠ 0) ∧
      t = { s with
        invocations := s.invocations + 1
        block := { s.block with subCycleCounter := s.block.subCycleCounter - 1 } }) := by
  have hsub : s.block.subCycleCounter - 1 = 0 ↔ s.block.subCycleCounter = 1 := by
    constructor
    · intro h; bv_omega
    · intro h; rw [h]; rfl
  unfold execInvoke at h
  simp only at h
  by_cases he : s.block.enabled = true
  · rw [if_pos he] at h
    by_cases h1 : s.block.subCycleCounter - 1 = 0
    · rw [if_pos h1] at h
      cases h
      exact .inr (.inl ⟨he, hsub.1 h1, by rw [h1]; rfl⟩)
    · rw [if_neg h1] at h
      have hne : s.block.subCycleCounter ≠ 1 := fun hq => h1 (hsub.2 hq)
      by_cases h2 : s.block.trackCount ≠ 0 ∧ s.block.sampleCounter = 0
      · rw [if_pos h2] at h
        split at h
        · cases h
        · rename_i b1 hb1
          cases h
          exact .inr (.inr (.inl ⟨he, hne, h2.1, h2.2, b1, hb1, rfl⟩))
      · rw [if_neg h2] at h
        cases h
        refine .inr (.inr (.inr ⟨he, hne, ?_, rfl⟩))
        by_cases h3 : s.block.trackCount = 0
        · exact .inl h3
        · exact .inr (fun h4 => h2 ⟨h3, h4⟩)
  · rw [if_neg he] at h
    cases h
    exact .inl ⟨by simpa using he, rfl⟩

/-- The events of the step model: the commands and the strobes (00_scope.md R8). A track event is none of them. -/
def IsEvent : Instr → Prop
  | .note _ _ _ => False
  | .rest _ _ => False
  | .rsvd _ _ _ => False
  | .init _ => True
  | .play _ _ _ => True
  | .stop => True
  | .isPlaying => True
  | .invoke => True
  | .reset => True

theorem decodeCW_isEvent (b : Bindings) (w : BitVec 32) : IsEvent (decodeCW b w) := by
  unfold decodeCW
  simp only
  split
  · trivial
  · split
    · trivial
    · split <;> trivial

/-- What a step can do: take a port sample that presents nothing, or run one event from the state in which the ports
have been read. -/
theorem step_cases {s t : State} (h : step s = .next t) :
    (∃ rest, t = { s with input := rest }) ∨
    (∃ i rest, IsEvent i ∧ exec i { s with input := rest } = .next t) := by
  unfold step fetch at h
  split at h
  · rename_i s' hf
    split at hf
    · cases hf; cases h; exact .inl ⟨_, rfl⟩
    · rename_i p rest hi
      split at hf
      · cases hf
      · split at hf
        · cases hf
        · split at hf
          · cases hf
          · cases hf; cases h; exact .inl ⟨rest, rfl⟩
  · rename_i i s' hf
    split at hf
    · cases hf
    · rename_i p rest hi
      split at hf
      · cases hf; exact .inr ⟨.reset, rest, trivial, h⟩
      · split at hf
        · cases hf; exact .inr ⟨_, _, decodeCW_isEvent _ _, h⟩
        · split at hf
          · rename_i j hj
            cases hf
            refine .inr ⟨_, rest, ?_, h⟩
            unfold decodeSV at hj
            split at hj
            · cases hj; trivial
            · split at hj
              · cases hj; trivial
              · cases hj
          · cases hf

end Sys2Proof.Machine
end

