-- ==== Sys2Proof/Tests/Slice0.lean ====
section
/-! SUPPORT. Tests. Expected values are those of spec/95_test_vectors.md, by the vector's name, or are worked by hand
from the rule named. The last part shows, for each statement with hypotheses, a state and operands that meet them. -/

namespace Sys2Proof.Tests

open Sys2Proof.Machine

/- One theorem at a time: the kernel evaluations below would else each hold a thread at once. -/
set_option Elab.async false

/-! ## Helpers -/

/-- A track from its events as numbers; only short lists are given. -/
def trackOf (l : List (Nat × Nat)) : Track :=
  if h : (l.map (fun e => (⟨BitVec.ofNat 8 e.1, BitVec.ofNat 16 e.2⟩ : Event))).length < 65536 then ⟨_, h⟩
  else Track.empty

/-- The source's example track (43_track_sequencer.md R139). -/
def exampleTrack : Track := trackOf [(60, 0), (255, 100)]

/-- Enabled, with no session: the state after a valid `INIT` from reset. -/
def idle : State := { State.reset with block := { Block.atReset Config.reference with enabled := true } }

/-- A session of one voice with one sample a tick, at the given counts. -/
def session (vc : Voice) (sub : Byte) (samples : Half) : State :=
  { idle with
    block := { idle.block with
      trackCount := 1
      samplesPerTick := 1
      subCycleCounter := sub
      sampleCounter := samples
      voices := VoiceFile.cleared.set 0 vc } }

/-- A Playing voice of a track, at a cursor, with ticks left and a pitch. -/
def playingVoice (t : Track) (cursor left : Half) (pitch : Byte) : Voice :=
  { boundVoice t with seqState := .playing, eventCursor := cursor, remainingTicks := left, currentPitch := pitch }

/-- A voice as 95_test_vectors.md V-SEQ writes it: state, pitch, ticks left, cursor. -/
def seqView (vc : Voice) : Nat × Nat × Nat × Nat :=
  ((seqStateCode vc.seqState).toNat, vc.currentPitch.toNat, vc.remainingTicks.toNat, vc.eventCursor.toNat)

/-- The registers as V-CMD writes them: `enabled`, `channel`, `trackCount`, `samplesPerTick`, `sampleCounter`,
`subCycleCounter`, `bufferedSample`. -/
def cmdView (s : State) : Bool × Nat × Nat × Nat × Nat × Nat × Nat :=
  (s.block.enabled, s.block.channel.toNat, s.block.trackCount.val, s.block.samplesPerTick.toNat,
    s.block.sampleCounter.toNat, s.block.subCycleCounter.toNat, s.block.bufferedSample.toNat)

/-- An outcome that is a next state with a property. -/
def ran (o : Host.Outcome State Fault Refusal) (p : State → Bool) : Bool :=
  match o with
  | .next t => p t
  | .fault _ => false
  | .refused _ => false

theorem next_of_ran {o : Host.Outcome State Fault Refusal} {p : State → Bool} (h : ran o p = true) :
    ∃ t, o = .next t ∧ p t = true := by
  cases o with
  | next t => exact ⟨t, rfl, h⟩
  | fault f => cases h
  | refused r => cases h

/-- A tick that ends as V-SEQ shows. -/
def ticked (r : Except Fault Voice) (view : Nat × Nat × Nat × Nat) : Bool :=
  match r with
  | .ok vc => seqView vc == view
  | .error _ => false

/-- An instruction as its encoding reads it back: its own source and bytes. -/
def readsBack (i : Instr) : Bool := decide (decode i.source (encode i) = .ok i)

/-! ## Well-formedness -/

theorem test_rsvd_note_pitch_ill_formed : Instr.wellFormed (.rsvd 0 0x7F 5) = false := by decide
theorem test_rsvd_sentinel_ill_formed : Instr.wellFormed (.rsvd 0 0xFF 5) = false := by decide
theorem test_play_missing_track_ill_formed :
    Instr.wellFormed (.play [exampleTrack] 2 1) = false := by decide
theorem test_play_fifth_track_ill_formed :
    Instr.wellFormed (.play [Track.empty, Track.empty, Track.empty, Track.empty, Track.empty] 5 1) = false := by decide
theorem test_track_reserved_pitch_ill_formed : (trackOf [(128, 0), (255, 1)]).wellFormed = false := by decide
theorem test_track_empty_ill_formed : Track.empty.wellFormed = false := by decide
theorem test_track_no_terminator_ill_formed : (trackOf [(60, 0)]).wellFormed = false := by decide
theorem test_track_example_well_formed : exampleTrack.wellFormed = true := by decide

/-! ## Decoding: the words of V-ENC, each row of the table at least once -/

theorem test_decode_note : decode (.track 0) [0x45#8, 0x2C#8, 0x01#8] = .ok (.note 0 69 300) := by decide
theorem test_decode_note_last : decode (.track 3) [0x7F#8, 0xFF#8, 0xFF#8] = .ok (.note 3 127 65535) := by decide
theorem test_decode_rest : decode (.track 1) [0xFF#8, 0x64#8, 0x00#8] = .ok (.rest 1 100) := by decide
theorem test_decode_rsvd : decode (.track 2) [0x80#8, 0x05#8, 0x00#8] = .ok (.rsvd 2 0x80 5) := by decide
theorem test_decode_rsvd_last : decode (.track 2) [0xFE#8, 0x05#8, 0x00#8] = .ok (.rsvd 2 0xFE 5) := by decide
theorem test_decode_init :
    decode (.command (Bindings.ofList [])) [0x00#8, 0xFF#8, 0x00#8, 0x3F#8] = .ok (.init 0) := by decide
theorem test_decode_play :
    decode (.command (Bindings.ofList [exampleTrack, Track.empty])) [0x02#8, 0x00#8, 0x02#8, 0x40#8] =
      .ok (.play [exampleTrack, Track.empty] 2 2) := by decide
theorem test_decode_stop :
    decode (.command (Bindings.ofList [])) [0x56#8, 0x34#8, 0x12#8, 0xBF#8] = .ok .stop := by decide
theorem test_decode_isPlaying :
    decode (.command (Bindings.ofList [])) [0xFF#8, 0xFF#8, 0xFF#8, 0xFF#8] = .ok .isPlaying := by decide
theorem test_decode_invoke : decode .strobe [0x01#8] = .ok .invoke := by decide
theorem test_decode_reset : decode .strobe [0x02#8] = .ok .reset := by decide
theorem test_decode_reset_discards_tick : decode .strobe [0x03#8] = .ok .reset := by decide
theorem test_decode_no_strobe : decode .strobe [0x00#8] = .error .noStrobe := by decide
theorem test_decode_short_event : decode (.track 0) [0x3C#8, 0x00#8] = .error .wrongLength := by decide
theorem test_decode_long_command :
    decode (.command (Bindings.ofList [])) [0#8, 0#8, 0#8, 0x80#8, 0#8] = .error .wrongLength := by decide
theorem test_table_words :
    decodeTableWord 24 0x012C45 = some (.note 0 69 300) ∧ decodeTableWord 24 0x0064FF = some (.rest 0 100) ∧
    decodeTableWord 24 0x0005FE = some (.rsvd 0 0xFE 5) ∧ decodeTableWord 32 0x00000009 = some (.init 9) ∧
    decodeTableWord 32 0x40000271 = some (.play [] 0 0x0271) ∧ decodeTableWord 32 0xBF123456 = some .stop ∧
    decodeTableWord 32 0xC0000000 = some .isPlaying ∧ decodeTableWord 8 1 = some .invoke ∧
    decodeTableWord 8 2 = some .reset ∧ decodeTableWord 8 0 = none ∧ decodeTableWord 16 0 = none := by decide
theorem test_encode_words :
    encode (.note 0 60 0) = [0x3C#8, 0#8, 0#8] ∧ encode (.rest 0 3) = [0xFF#8, 3#8, 0#8] ∧
    encode (.rsvd 0 0x80 5) = [0x80#8, 5#8, 0#8] ∧ encode (.init 9) = [9#8, 0#8, 0#8, 0#8] ∧
    encode (.play [] 4 0x0271) = [0x71#8, 0x02#8, 0x04#8, 0x40#8] ∧ encode .stop = [0#8, 0#8, 0#8, 0x80#8] ∧
    encode .isPlaying = [0#8, 0#8, 0#8, 0xC0#8] := by decide

/-! ## The reference images (40_waveform_rom.md R106, 41_frequency_rom.md R113) -/

theorem test_wave_check_sum : (referenceWave.map BitVec.toNat).sum = 20679 := by decide +kernel
theorem test_frequency_rows :
    [0, 7, 60, 69, 103, 127].map (fun p => (increment Config.reference (BitVec.ofNat 7 p)).toNat) =
      [171, 257, 5487, 9227, 65766, 263064] := by decide +kernel

/-! ## Waveform and oscillator (V-WAV-1, V-OSC-1, V-OSC-3, V-OSC-5) -/

theorem test_sampleAt :
    [0, 1, 37, 255, 256, 511, 512, 513, 767, 768, 805, 1023, 1024, 1061, 65535].map
        (fun x => (sampleAt Config.reference x).toNat) =
      [128, 129, 157, 255, 255, 128, 128, 127, 1, 1, 4, 128, 128, 157, 128] := by decide +kernel

/-- A voice that sounds a pitch at a phase. -/
def sounding (pitch : Byte) (index : Half) (fraction : Byte) : Voice :=
  { playingVoice exampleTrack 1 100 pitch with phaseIndex := index, phaseFraction := fraction }

theorem test_voiceSample_carries :
    let r := voiceSample Config.reference (sounding 60 42 222)
    (r.1.phaseIndex, r.1.phaseFraction, r.2) = (64#16, 77#8, 177#8) := by decide +kernel
theorem test_voiceSample_wraps :
    let r := voiceSample Config.reference (sounding 127 65000 200)
    (r.1.phaseIndex, r.1.phaseFraction, r.2) = (492#16, 96#8, 143#8) := by decide +kernel
theorem test_voiceSample_pause :
    voiceSample Config.reference (sounding 200 54 2) = (sounding 200 54 2, 128#8) := by decide +kernel

/-! ## Mixer (V-MIX) -/

theorem test_mixScale :
    [(0, 0), (1, 200), (2, 383), (2, 510), (3, 764), (3, 383), (3, 389), (4, 512), (4, 1019), (4, 511)].map
        (fun r => (mixScale Config.reference (Fin.ofNat 5 r.1) (BitVec.ofNat 10 r.2)).toNat) =
      [128, 200, 191, 255, 254, 127, 129, 128, 254, 127] := by decide +kernel

/-! ## Sequencer (V-SEQ-1, V-SEQ-5, V-SEQ-6, V-SEQ-7) -/

/-- The track of V-SEQ-5. -/
def chainTrack : Track := trackOf [(60, 0), (61, 0), (62, 0), (63, 2), (64, 0), (255, 1)]

theorem test_priming : ticked (tickVoice 0 (boundVoice chainTrack)) (1, 255, 0, 0) = true := by decide +kernel
theorem test_priming_empty_track : ticked (tickVoice 0 (boundVoice Track.empty)) (2, 255, 0, 0) = true := by
  decide +kernel
theorem test_consume_chain :
    ticked (tickVoice 0 (playingVoice chainTrack 0 0 255)) (1, 62, 2, 3) = true := by decide +kernel
theorem test_consume_second_chain :
    ticked (tickVoice 0 (playingVoice chainTrack 3 1 62)) (1, 64, 1, 5) = true := by decide +kernel
theorem test_decrement : ticked (tickVoice 0 (playingVoice chainTrack 3 2 62)) (1, 62, 1, 3) = true := by
  decide +kernel
theorem test_last_event_never_sounds :
    ticked (tickVoice 0 (playingVoice (trackOf [(60, 3)]) 0 1 255)) (2, 255, 0, 1) = true := by decide +kernel

/-! ## One step of each instruction -/

theorem test_note : ran (exec (.note 2 69 7) idle) (fun t =>
    seqView (t.block.voice 2) == (2, 69, 0, 1) && t.block.voice 1 == Voice.cleared) = true := by decide +kernel
theorem test_note_by_step : ran (step (State.reset.withFetchWord 24 0x012C45)) (fun t =>
    seqView (t.block.voice 0) == (1, 69, 1, 1)) = true := by decide +kernel
theorem test_rest : ran (exec (.rest 0 7) (session (playingVoice exampleTrack 1 3 60) 4 1)) (fun t =>
    seqView (t.block.voice 0) == (1, 255, 3, 2)) = true := by decide +kernel
theorem test_rest_by_step : ran (step (State.reset.withFetchWord 24 0x0064FF)) (fun t =>
    seqView (t.block.voice 0) == (1, 255, 1, 1)) = true := by decide +kernel
theorem test_rsvd : ran (exec (.rsvd 3 0xFE 0) idle) (fun t =>
    seqView (t.block.voice 3) == (2, 254, 0, 1)) = true := by decide +kernel
theorem test_rsvd_by_step : ran (step (State.reset.withFetchWord 24 0x000580)) (fun t =>
    seqView (t.block.voice 0) == (1, 128, 1, 1)) = true := by decide +kernel
/-- V-CMD-1. -/
theorem test_init : ran (step (State.reset.withFetchWord 32 0)) (fun t =>
    cmdView t == (true, 0, 0, 0, 0, 5, 128)) = true := by decide +kernel
/-- V-CMD-4. -/
theorem test_init_invalid_channel :
    ran (exec (.init 7) (session (playingVoice exampleTrack 1 3 60) 4 1)) (fun t =>
      cmdView t == (false, 0, 0, 0, 0, 5, 128) && t.block.voices == VoiceFile.cleared) = true := by decide +kernel
/-- V-CMD-8. -/
theorem test_play : ran (exec (.play [exampleTrack] 1 1) idle) (fun t =>
    cmdView t == (true, 0, 1, 1, 1, 5, 128) && seqView (t.block.voice 0) == (0, 255, 0, 0) &&
      (t.block.voice 0).eventCount == 2 && t.block.voice 1 == Voice.cleared) = true := by decide +kernel
/-- V-CMD-9. -/
theorem test_play_rejected :
    ran (exec (.play [] 5 9) (session (playingVoice exampleTrack 1 3 60) 4 1)) (fun t =>
      t == session (playingVoice exampleTrack 1 3 60) 4 1) = true := by decide +kernel
/-- V-CMD-11. -/
theorem test_stop : ran (exec .stop (session (playingVoice exampleTrack 1 3 60) 1 1)) (fun t =>
    cmdView t == (true, 0, 0, 0, 0, 1, 128) && t.block.voices == VoiceFile.cleared) = true := by decide +kernel
/-- V-CMD-12. -/
theorem test_stop_idle : ran (exec .stop idle) (fun t => t == idle) = true := by decide +kernel
theorem test_isPlaying : ran (exec .isPlaying (session (boundVoice exampleTrack) 5 1)) (fun t =>
    t.results == [true]) = true := by decide +kernel
theorem test_isPlaying_idle : ran (exec .isPlaying idle) (fun t => t.results == [false]) = true := by decide +kernel
/-- V-SCH-1, invocation 30: it writes the pending 144 and mixes 160. -/
theorem test_invoke_sample_step :
    let s := session (sounding 60 21 111) 1 1
    ran (exec .invoke { s with block := { s.block with bufferedSample := 144 } }) (fun t =>
      t.out == [⟨1, 144, 0⟩] && cmdView t == (true, 0, 1, 1, 0, 5, 160)) = true := by decide +kernel
/-- V-SCH-1, invocation 51: the tick pass that ends the session. -/
theorem test_invoke_ends_session : ran (exec .invoke (session (playingVoice exampleTrack 1 1 60) 5 0)) (fun t =>
    cmdView t == (true, 0, 0, 0, 0, 4, 128) && t.block.voices == VoiceFile.cleared) = true := by decide +kernel
/-- V-CMD-15. -/
theorem test_reset : ran (exec .reset (session (sounding 60 21 111) 3 1)) (fun t =>
    t.block == Block.atReset Config.reference) = true := by decide +kernel
/-- V-RST-2. -/
theorem test_reset_wins :
    ran (step { idle with input := [⟨0b11, some ⟨0, Bindings.ofList []⟩⟩] }) (fun t =>
      t.block == Block.atReset Config.reference && t.input == []) = true := by decide +kernel

/-! ## Witnesses: each statement's hypotheses are met -/

theorem witness_DecodeOfEncode :
    WellFormed (.rsvd 0 0x80 65535) ∧ WellFormed (.rsvd 3 0xFE 0) ∧ WellFormed (.note 0 127 65535) ∧
    WellFormed (.play [exampleTrack] 1 1) ∧
    WellFormed (.play [exampleTrack, Track.empty, exampleTrack, Track.empty] 255 1) := by decide

theorem witness_EveryEventWord :
    ((0x01007F#24).extractLsb' 0 8).toNat < 128 ∧ (0x0064FF#24).extractLsb' 0 8 = 0xFF#8 ∧
    128 ≤ ((0x000580#24).extractLsb' 0 8).toNat ∧ (0x000580#24).extractLsb' 0 8 ≠ 0xFF#8 ∧
    128 ≤ ((0x0000FE#24).extractLsb' 0 8).toNat ∧ (0x0000FE#24).extractLsb' 0 8 ≠ 0xFF#8 := by decide

theorem witness_CommandWords :
    0x3FFFFFFF#32 &&& 0xC0000000#32 = 0x00000000#32 ∧ 0x40040271#32 &&& 0xC0000000#32 = 0x40000000#32 ∧
    0xBF123456#32 &&& 0xC0000000#32 = 0x80000000#32 ∧ 0xFFFFFFFF#32 &&& 0xC0000000#32 = 0xC0000000#32 := by decide

theorem witness_StrobeVectors :
    (0b01#2 &&& 0x3#2 = 0x1#2) ∧ (0b10#2 &&& 0x2#2 = 0x2#2) ∧ (0b11#2 &&& 0x2#2 = 0x2#2) := by decide

theorem witness_StepRunsThePresentedWord :
    let c : Command := ⟨0x40010001, Bindings.ofList [exampleTrack]⟩
    let s : State := { idle with input := [⟨0#2, some c⟩, ⟨1#2, none⟩] }
    let s' : State := { idle with input := [⟨1#2, none⟩] }
    (s.input = [⟨0#2, some c⟩, ⟨1#2, none⟩] ∧
      decode (.command c.tracks) (bytes32 c.word) = .ok (.play [exampleTrack] 1 1)) ∧
    (s'.input = [⟨1#2, none⟩] ∧ decode .strobe [0#6 ++ 1#2] = .ok .invoke) := by decide +kernel

theorem witness_TickRunsTheDecodedEvent :
    let s := session (playingVoice exampleTrack 0 1 255) 5 0
    (s.block.voice 0).seqState = .playing ∧ (s.block.voice 0).remainingTicks.toNat ≤ 1 ∧
    readEvent (s.block.voice 0) (s.block.voice 0).eventCursor = some ⟨60, 0⟩ ∧
    decode (.track 0) (bytes24 (wordOfEvent ⟨60, 0⟩)) = .ok (.note 0 60 0) := by decide +kernel

theorem witness_PlacedWord :
    decodeTableWord 32 0x80000000 = some .stop ∧ decodeTableWord 8 1 = some .invoke ∧
    decodeTableWord 24 0x00003C = some (.note 0 60 0) := by decide

theorem witness_StrobeVectorSelectsTheEvent :
    let reset : PortSample := ⟨0b11, some ⟨0, Bindings.ofList []⟩⟩
    let tick : PortSample := ⟨0b01, none⟩
    let quiet : PortSample := ⟨0b00, none⟩
    ({ idle with input := [reset, tick, quiet] } : State).input = reset :: [tick, quiet] ∧
    reset.sv &&& 0x2#2 = 0x2#2 ∧ tick.sv &&& 0x3#2 = 0x1#2 ∧ tick.cmd = none ∧ quiet.sv = 0b00#2 ∧
    quiet.cmd = none := by decide +kernel

theorem witness_CommandRunsBeforeTheStrobe :
    let c : Command := ⟨0, Bindings.ofList []⟩
    let s : State := { State.reset with input := [⟨0b01, some c⟩] }
    s.input = ⟨0b01#2, some c⟩ :: [] ∧ ∃ t, step s = .next t ∧ t.block.enabled = true :=
  ⟨rfl, next_of_ran (p := fun t => t.block.enabled) (by decide +kernel)⟩

theorem witness_RestAndReserved :
    WellFormed (.rsvd 0 0x80 0) ∧ (sounding 0x80 1 2).currentPitch = 0x80 ∧
    (sounding 0xFF 1 2).currentPitch = 0xFF#8 := by decide +kernel

theorem witness_EventsChangeOnly :
    (∃ t, exec (.note 0 60 0) idle = .next t) ∧ (∃ t, exec (.rest 1 0) idle = .next t) ∧
    ∃ t, exec (.rsvd 2 0x80 0) idle = .next t :=
  ⟨⟨_, rfl⟩, ⟨_, rfl⟩, ⟨_, rfl⟩⟩

theorem witness_PrimingTick :
    ((boundVoice Track.empty).seqState = .priming ∧ (boundVoice Track.empty).eventCount = 0) ∧
    ((boundVoice exampleTrack).seqState = .priming ∧ (boundVoice exampleTrack).eventCount ≠ 0 ∧
      readTrkd (boundVoice exampleTrack) 0 = some 0) := by decide +kernel

theorem witness_PlayingTick :
    (playingVoice exampleTrack 0 2 60).seqState = .playing ∧
    2 ≤ (playingVoice exampleTrack 0 2 60).remainingTicks.toNat ∧
    2 ≤ (playingVoice exampleTrack 0 65535 60).remainingTicks.toNat ∧
    (playingVoice exampleTrack 0 1 60).remainingTicks = 1 ∧
    (playingVoice exampleTrack 0 0 60).remainingTicks = 0 := by decide +kernel

theorem witness_FinishedTick : Voice.cleared.seqState = .finished ∧ Voice.cleared.currentPitch = 0xFF#8 := by decide

theorem witness_ConsumeChain :
    let wait := playingVoice chainTrack 0 0 255
    let ends := playingVoice (trackOf [(60, 0), (61, 0), (62, 0)]) 0 0 255
    (wait.track = some chainTrack ∧ wait.eventCount = trackLength chainTrack ∧
      wait.eventCursor.toNat + 2 < chainTrack.events.length ∧ delayOf chainTrack 1 = 0 ∧ delayOf chainTrack 2 = 0 ∧
      chainTrack.events[2]? = some ⟨62, 0⟩ ∧ chainTrack.events[3]? = some ⟨63, 2⟩) ∧
    (ends.eventCount = trackLength (trackOf [(60, 0), (61, 0), (62, 0)]) ∧
      delayOf (trackOf [(60, 0), (61, 0), (62, 0)]) 1 = 0 ∧ delayOf (trackOf [(60, 0), (61, 0), (62, 0)]) 2 = 0 ∧
      ends.eventCursor.toNat + 2 + 1 = (trackOf [(60, 0), (61, 0), (62, 0)]).events.length) := by decide +kernel

/-- The track of V-SEQ-3, where events 0, 1 and 2 are loaded in passes 3, 5 and 6. -/
theorem witness_EventsAreLoaded :
    let t := trackOf [(60, 2), (62, 2), (255, 1)]
    (t.events ≠ [] ∧ Track.empty.events = [] ∧ loadPass t 0 = 3 ∧ loadPass t 1 = 5 ∧ loadPass t 2 = 6) ∧
    (1 ≤ 2 ∧ 2 < loadPass t 0) ∧
    (0 + 1 < t.events.length ∧ loadPass t 0 ≤ 3 ∧ 4 < loadPass t (0 + 1) ∧ t.events[0]? = some ⟨60, 2⟩) ∧
    loadPass t (t.events.length - 1) ≤ 6 := by
  decide +kernel

theorem witness_CarryProperty : readFint Config.reference 7 = 1 ∧ readFfrac Config.reference 7 = 1 := by
  decide +kernel

theorem witness_SampleAtQuadrants :
    255 % 1024 < 256 ∧ (256 ≤ 256 % 1024 ∧ 511 % 1024 < 512) ∧ (512 ≤ 512 % 1024 ∧ 1791 % 1024 < 768) ∧
    768 ≤ 768 % 1024 := by decide

theorem witness_WaveformMonotone :
    (0 ≤ 255 ∧ 255 < 256) ∧ (768 ≤ 768 ∧ 1023 < 1024) ∧ (256 ≤ 256 ∧ 511 < 512) ∧ (512 ≤ 512 ∧ 767 < 768) := by decide

theorem witness_VoiceSample :
    128 ≤ (sounding 128 1 2).currentPitch.toNat ∧ 128 ≤ (sounding 255 1 2).currentPitch.toNat ∧
    (sounding 127 1 2).currentPitch = 0#1 ++ 127#7 ∧ (sounding 0 1 2).currentPitch = 0#1 ++ 0#7 := by decide +kernel

/-- A session of two voices: voice 0 sounds, voice 1 rests. -/
def duet : State :=
  { session (sounding 60 21 111) 1 1 with
    block := { (session (sounding 60 21 111) 1 1).block with
      trackCount := 2
      voices := (VoiceFile.cleared.set 0 (sounding 60 21 111)).set 1 (sounding 255 5 5) } }

theorem witness_Mixer :
    idle.block.trackCount = 0 ∧ duet.block.trackCount ≠ 0 ∧
    (∀ v, duet.block.active v → 128 ≤ (voiceSample duet.config (duet.block.voice v)).2.toNat ∧
      (voiceSample duet.config (duet.block.voice v)).2.toNat ≤ 160) ∧
    duet.block.active 0 ∧
    (∀ w, duet.block.active w → w ≠ 0 → isPause (duet.block.voice w).currentPitch = true) := by decide +kernel

theorem witness_DisabledInvoke : State.reset.block.enabled = false := by decide

theorem witness_SampleStep : duet.block.enabled = true ∧ duet.block.subCycleCounter = 1 := by decide +kernel

theorem witness_BareSubCycle :
    (idle.block.enabled = true ∧ idle.block.subCycleCounter ≠ 1 ∧ idle.block.trackCount = 0) ∧
    ((session (boundVoice exampleTrack) 2 1).block.enabled = true ∧
      (session (boundVoice exampleTrack) 2 1).block.subCycleCounter ≠ 1 ∧
      (session (boundVoice exampleTrack) 2 1).block.sampleCounter ≠ 0) := by decide +kernel

theorem witness_TickPass_continues :
    let s := session (boundVoice exampleTrack) 5 0
    let u : Voice := { boundVoice exampleTrack with seqState := .playing }
    s.block.enabled = true ∧ s.block.subCycleCounter ≠ 1 ∧ s.block.trackCount ≠ 0 ∧ s.block.sampleCounter = 0 ∧
    (∀ v, s.block.active v → tickVoice v (s.block.voice v) = .ok u) ∧ s.block.active 0 ∧
    u.seqState ≠ .finished := by decide +kernel

theorem witness_TickPass_ends :
    let s := session (boundVoice Track.empty) 5 0
    let u : Voice := { boundVoice Track.empty with seqState := .finished }
    s.block.enabled = true ∧ s.block.subCycleCounter ≠ 1 ∧ s.block.trackCount ≠ 0 ∧ s.block.sampleCounter = 0 ∧
    (∀ v, s.block.active v → tickVoice v (s.block.voice v) = .ok u) ∧
    (∀ v, s.block.active v → u.seqState = .finished) := by decide +kernel

/-- `InvokeFrame`, `OnlySampleStepsWriteTheSink`, `CursorsOnlyAdvance`: a sample step and a tick pass of a lasting
session. -/
theorem witness_InvokeFrame :
    (duet.block.subCycleCounter = 1 ∧ duet.block.trackCount ≠ 0 ∧
      ∃ t, exec .invoke duet = .next t ∧
        (t.block.trackCount = duet.block.trackCount ∧ t.out.length = 1)) ∧
    ((session (boundVoice exampleTrack) 5 0).block.subCycleCounter ≠ 1 ∧
      ∃ t, exec .invoke (session (boundVoice exampleTrack) 5 0) = .next t ∧
        t.block.trackCount = 1) := by
  refine ⟨⟨by decide +kernel, by decide +kernel, ?_⟩, by decide +kernel, ?_⟩
  · obtain ⟨t, h, hp⟩ := next_of_ran (o := exec .invoke duet)
      (p := fun t => decide (t.block.trackCount = duet.block.trackCount ∧ t.out.length = 1)) (by decide +kernel)
    exact ⟨t, h, of_decide_eq_true hp⟩
  · obtain ⟨t, h, hp⟩ := next_of_ran (o := exec .invoke (session (boundVoice exampleTrack) 5 0))
      (p := fun t => decide (t.block.trackCount = 1)) (by decide +kernel)
    exact ⟨t, h, of_decide_eq_true hp⟩

theorem witness_SessionTimeline :
    idle.block.enabled = true ∧ 1 ≤ (4#8).toNat ∧ (4#8).toNat ≤ 4 ∧ 1 ≤ (1#16).toNat ∧
    ∃ s0, exec (.play [exampleTrack, chainTrack, exampleTrack, Track.empty] 4#8 1#16) idle = .next s0 :=
  ⟨by decide +kernel, by decide, by decide, by decide, ⟨_, rfl⟩⟩

/-- `SessionTimeline`: a voice of a track with events is not Finished after one tick, an empty track is. -/
theorem witness_SessionTimeline_lasts :
    ticked (ticks 1 1 (boundVoice (trackOperand [Track.empty, exampleTrack] 1))) (1, 255, 0, 0) = true ∧
    ticked (ticks 0 1 (boundVoice (trackOperand [Track.empty, exampleTrack] 0))) (2, 255, 0, 0) = true := by
  decide +kernel

theorem witness_IdleEngine :
    idle.block.enabled = true ∧ idle.block.trackCount = 0 ∧ SubCycleInRange idle.config idle.block := by
  decide +kernel

theorem witness_InitBindsAValidChannel :
    (0#8 ∈ Config.reference.validChannels) ∧ (9#8 ∉ Config.reference.validChannels) := by decide +kernel

theorem witness_PlayStartsASession :
    State.reset.block.enabled = false ∧ (0#8).toNat = 0 ∧ 4 < (5#8).toNat ∧ idle.block.enabled = true ∧
    1 ≤ (1#8).toNat ∧ (4#8).toNat ≤ 4 ∧ (0 : VoiceId).val < (1#8).toNat ∧
    [exampleTrack][(0 : VoiceId).val]? = some exampleTrack ∧ (1#8).toNat ≤ (1 : VoiceId).val := by decide +kernel

/-- The invariants hold of the reset state, of an idle engine and of a session, in which the statements from them say
something. -/
theorem witness_Inv_reset : Inv State.reset ∧ State.reset.block.trackCount = 0 :=
  ⟨by decide +kernel, by decide +kernel⟩

theorem witness_Inv_idle : Inv idle ∧ idle.block.trackCount = 0 := ⟨by decide +kernel, by decide +kernel⟩

theorem witness_Inv_session :
    Inv (session (playingVoice exampleTrack 1 3 60) 5 0) ∧
    (session (playingVoice exampleTrack 1 3 60) 5 0).block.trackCount ≠ 0 :=
  ⟨by decide +kernel, by decide +kernel⟩

theorem witness_ResetWins :
    let p : PortSample := ⟨0b10, some ⟨0xC0000000, Bindings.ofList []⟩⟩
    ({ idle with input := [p] } : State).input = p :: [] ∧ p.sv &&& 0x2#2 = 0x2#2 := by decide +kernel

theorem witness_Modes :
    State.reset.block.mode = .disabled ∧ idle.block.mode = .idle ∧
    (session (playingVoice exampleTrack 1 3 60) 5 0).block.mode = .playing ∧
    (∃ t, exec (.init 0) State.reset = .next t) ∧ (∃ t, exec (.play [exampleTrack] 1 1) idle = .next t) ∧
    (∃ t, exec .stop idle = .next t) ∧ (∃ t, exec .isPlaying idle = .next t) ∧ (∃ t, exec .reset idle = .next t) ∧
    (∃ t, exec .invoke State.reset = .next t ∧ (fun _ => true) t = true) ∧
    ∃ t, exec .invoke (session (playingVoice exampleTrack 1 3 60) 5 0) = .next t ∧ (fun _ => true) t = true :=
  ⟨by decide +kernel, by decide +kernel, by decide +kernel, ⟨_, rfl⟩, ⟨_, rfl⟩, ⟨_, rfl⟩, ⟨_, rfl⟩, ⟨_, rfl⟩,
    next_of_ran (by decide +kernel), next_of_ran (by decide +kernel)⟩

/-- The two ways an `INVOKE` leaves Playing: by a tick pass that finds the one voice Finished, or not at all. -/
theorem witness_Modes_tick_pass_ends :
    let s := session (playingVoice exampleTrack 1 1 60) 5 0
    let u : Voice := { playingVoice exampleTrack 2 0 255 with seqState := .finished }
    Inv s ∧ s.block.mode = .playing ∧ s.block.subCycleCounter ≠ 1 ∧ s.block.sampleCounter = 0 ∧
    (∀ v, s.block.active v → tickVoice v (s.block.voice v) = .ok u) ∧ u.seqState = .finished ∧
    ∃ t, exec .invoke s = .next t ∧ decide (t.block.mode = .idle) = true :=
  ⟨by decide +kernel, by decide +kernel, by decide +kernel, by decide +kernel, by decide +kernel, by decide +kernel,
    next_of_ran (p := fun t => decide (t.block.mode = .idle)) (by decide +kernel)⟩

theorem witness_Modes_tick_pass_continues :
    let s := session (playingVoice exampleTrack 1 3 60) 5 0
    Inv s ∧ s.block.mode = .playing ∧ ∃ t, exec .invoke s = .next t ∧ decide (t.block.mode = .playing) = true :=
  ⟨by decide +kernel, by decide +kernel,
    next_of_ran (p := fun t => decide (t.block.mode = .playing)) (by decide +kernel)⟩

/-- A step from a state with every invariant stated: the tick pass of a lasting session. -/
theorem witness_StepKeeps :
    let s : State := { session (playingVoice exampleTrack 1 3 60) 5 0 with input := [⟨0b01, none⟩] }
    Inv s ∧ Memory.wf s.block = true ∧ OutputsInRange s ∧ SampleCounterInRange s ∧
    ∃ t, step s = .next t ∧ (t.block.trackCount == 1) = true :=
  ⟨by decide +kernel, by decide +kernel, by decide +kernel, by decide +kernel,
    next_of_ran (p := fun t => t.block.trackCount == 1) (by decide +kernel)⟩

theorem witness_SampleCounterBeforeSampleStep :
    let s := session (playingVoice exampleTrack 1 3 60) 1 1
    SampleCounterInRange s ∧ s.block.trackCount ≠ 0 ∧ 1 ≤ s.block.samplesPerTick.toNat ∧
    s.block.subCycleCounter = 1 := by decide +kernel

theorem witness_HeldPitches :
    let s : State := { session (playingVoice exampleTrack 1 3 60) 5 0 with input := [⟨0b01, none⟩] }
    SessionHoldsPitches s.block ∧ ∃ t, step s = .next t ∧ (t.block.trackCount == 1) = true := by
  refine ⟨fun v hv => ?_, next_of_ran (p := fun t => t.block.trackCount == 1) (by decide +kernel)⟩
  have h0 : v = 0 := Fin.ext (by simpa [session] using hv)
  subst h0
  have h : readTrkp (playingVoice exampleTrack 1 3 60) 0 = some 60 := by decide +kernel
  exact h

/-- `CursorsOnlyAdvance`: a tick pass, and a sample step, of a lasting session with the invariants. -/
theorem witness_CursorsOnlyAdvance_tick :
    let s := session (playingVoice chainTrack 0 0 255) 5 0
    Inv s ∧ ∃ t, exec .invoke s = .next t ∧ (t.block.trackCount != 0) = true :=
  ⟨by decide +kernel, next_of_ran (p := fun t => t.block.trackCount != 0) (by decide +kernel)⟩

theorem witness_CursorsOnlyAdvance_sample :
    let s := session (playingVoice chainTrack 0 0 255) 1 1
    (Inv s ∧ s.block.subCycleCounter = 1) ∧ ∃ t, exec .invoke s = .next t ∧ (t.block.trackCount != 0) = true :=
  ⟨⟨by decide +kernel, by decide +kernel⟩, next_of_ran (p := fun t => t.block.trackCount != 0) (by decide +kernel)⟩

/-- `OnlyInvokeCanFault`: a state that no run reaches, in which a Playing voice has no track. -/
theorem witness_InvokeFaults :
    exec .invoke (session { Voice.cleared with seqState := .playing } 5 0) = .fault (.noTrackElement 0 0) := rfl

/-- `VoicesDoNotInteract`: two engines that differ in voice 1 alone. -/
theorem witness_VoicesDoNotInteract :
    let s1 := duet
    let s2 : State := duet.setVoice 1 (sounding 100 7 7)
    s1.config = s2.config ∧ s1.block.enabled = s2.block.enabled ∧ s1.block.trackCount = s2.block.trackCount ∧
    s1.block.subCycleCounter = s2.block.subCycleCounter ∧ s1.block.sampleCounter = s2.block.sampleCounter ∧
    s1.block.voice 0 = s2.block.voice 0 ∧ s1.block.voice 1 ≠ s2.block.voice 1 ∧
    (∃ t1, exec .invoke s1 = .next t1 ∧ (t1.block.trackCount == 2) = true) ∧
    ∃ t2, exec .invoke s2 = .next t2 ∧ (t2.block.trackCount == 2) = true :=
  ⟨by decide +kernel, by decide +kernel, by decide +kernel, by decide +kernel, by decide +kernel, by decide +kernel,
    by decide +kernel, next_of_ran (p := fun t => t.block.trackCount == 2) (by decide +kernel),
    next_of_ran (p := fun t => t.block.trackCount == 2) (by decide +kernel)⟩

end Sys2Proof.Tests
end

section
/-! PROOFS. The encodings (30_encoding.md R82, R88, R89): what the three decoders answer, one lemma for
each row of the opcode table, and the statements about their maps. -/

namespace Sys2Proof.Machine

/-! ## Format EV: the class of an event word (30_encoding.md R82) -/

section
variable (v : VoiceId) {w : BitVec 24}

theorem decodeEV_note (h : (w.extractLsb' 0 8).toNat < 128) :
    decodeEV v w = .note v (w.extractLsb' 0 7) (w.extractLsb' 8 16) := by
  have hclass := (pitchClass_spec _).1 h
  have hpn : (w.extractLsb' 0 8).extractLsb' 0 7 = w.extractLsb' 0 7 :=
    BitVec.extractLsb'_extractLsb'_of_le (by decide)
  simp only [decodeEV, decodeEvent, eventOfWord, hclass, hpn]

theorem decodeEV_rest (h : w.extractLsb' 0 8 = 0xFF#8) : decodeEV v w = .rest v (w.extractLsb' 8 16) := by
  have hclass := (pitchClass_spec _).2.1 h
  simp only [decodeEV, decodeEvent, eventOfWord, hclass]

theorem decodeEV_rsvd (hge : 128 ≤ (w.extractLsb' 0 8).toNat) (hne : w.extractLsb' 0 8 ≠ 0xFF#8) :
    decodeEV v w = .rsvd v (w.extractLsb' 0 8) (w.extractLsb' 8 16) := by
  have hclass := (pitchClass_spec _).2.2 hge hne
  simp only [decodeEV, decodeEvent, eventOfWord, hclass]

end

/-- A pitch byte is a note's, the sentinel or a reserved value (30_encoding.md R82). -/
theorem pitch_cases (p : Byte) : p.toNat < 128 ∨ p = 0xFF#8 ∨ (128 ≤ p.toNat ∧ p ≠ 0xFF#8) := by
  by_cases hlt : p.toNat < 128
  · exact .inl hlt
  · by_cases hff : p = 0xFF#8
    · exact .inr (.inl hff)
    · exact .inr (.inr ⟨by omega, hff⟩)

theorem wellFormed_rsvd_iff (v : VoiceId) (p : Byte) (d : Half) :
    WellFormed (.rsvd v p d) ↔ 128 ≤ p.toNat ∧ p ≠ 0xFF#8 := by
  simp [WellFormed, Instr.wellFormed]

theorem wellFormed_decodeEV (v : VoiceId) (w : BitVec 24) : WellFormed (decodeEV v w) := by
  obtain hlt | hff | ⟨hge, hne⟩ := pitch_cases (w.extractLsb' 0 8)
  · rw [decodeEV_note v hlt]; rfl
  · rw [decodeEV_rest v hff]; rfl
  · rw [decodeEV_rsvd v hge hne]
    exact (wellFormed_rsvd_iff _ _ _).2 ⟨hge, hne⟩

/-! ## The events complete: each is one load at its voice (43_track_sequencer.md R131 to R133) -/

section
variable (v : VoiceId) (d : Half) (s : State)

theorem exec_note (pn : BitVec 7) :
    exec (.note v pn d) s = .next (s.setVoice v (loadNote pn (s.block.voice v))) := rfl

theorem exec_rest : exec (.rest v d) s = .next (s.setVoice v (loadRest (s.block.voice v))) := rfl

theorem exec_rsvd (p : Byte) :
    exec (.rsvd v p d) s = .next (s.setVoice v (loadRsvd p (s.block.voice v))) := rfl

end

theorem completes_exec_decodeEV (v : VoiceId) (w : BitVec 24) (s : State) : Completes (exec (decodeEV v w) s) := by
  obtain hlt | hff | ⟨hge, hne⟩ := pitch_cases (w.extractLsb' 0 8)
  · rw [decodeEV_note v hlt, exec_note]; exact ⟨_, rfl⟩
  · rw [decodeEV_rest v hff, exec_rest]; exact ⟨_, rfl⟩
  · rw [decodeEV_rsvd v hge hne, exec_rsvd]; exact ⟨_, rfl⟩

theorem isPause_iff (p : Byte) : isPause p = true ↔ 128 ≤ p.toNat := by
  simp [isPause]

/-- Settles O2, by the class of the pitch byte. -/
theorem everyEventWordIsOneInstruction : Obligations.EveryEventWordIsOneInstruction := by
  intro v w
  exact ⟨decodeEV_note v, decodeEV_rest v,
    fun hge hne => ⟨decodeEV_rsvd v hge hne, (isPause_iff _).2 hge⟩,
    wellFormed_decodeEV v w, completes_exec_decodeEV v w⟩

/-! ## Format CW: the opcode under its mask (30_encoding.md R86, R88) -/

/-- A command word matches an opcode under the mask 0xC0000000 exactly if the opcode is its field [31:30]. -/
theorem and_opcodeMask_eq_iff (w : BitVec 32) (op : BitVec 2) :
    w &&& 0xC0000000#32 = op ++ 0#30 ↔ w.extractLsb' 30 2 = op := by
  have hfield : w &&& 0xC0000000#32 = w.extractLsb' 30 2 ++ 0#30 := calc
    w &&& 0xC0000000#32
      = (w.extractLsb' 30 2 ++ w.extractLsb' 0 30) &&& (0b11#2 ++ 0#30) := by
        rw [BitVec.extractLsb'_append_extractLsb']; rfl
    _ = (w.extractLsb' 30 2 &&& BitVec.allOnes 2) ++ (w.extractLsb' 0 30 &&& 0#30) := BitVec.and_append
    _ = w.extractLsb' 30 2 ++ 0#30 := by rw [BitVec.and_allOnes, BitVec.and_zero]
  rw [hfield, BitVec.append_left_inj]

section
variable (b : Bindings) {w : BitVec 32}

theorem decodeCW_init (h : w.extractLsb' 30 2 = 0b00#2) : decodeCW b w = .init (w.extractLsb' 0 8) := by
  simp [decodeCW, h]

theorem decodeCW_play (h : w.extractLsb' 30 2 = 0b01#2) :
    decodeCW b w = .play (playTracks b (w.extractLsb' 16 8)) (w.extractLsb' 16 8) (w.extractLsb' 0 16) := by
  simp [decodeCW, h]

theorem decodeCW_stop (h : w.extractLsb' 30 2 = 0b10#2) : decodeCW b w = .stop := by
  simp [decodeCW, h]

theorem decodeCW_isPlaying (h : w.extractLsb' 30 2 = 0b11#2) : decodeCW b w = .isPlaying := by
  simp [decodeCW, h]

end

theorem opcode_cases (op : BitVec 2) : op = 0b00#2 ∨ op = 0b01#2 ∨ op = 0b10#2 ∨ op = 0b11#2 := by
  revert op; decide

/-- `PLAY` takes as many of the four bindings as its count says (30_encoding.md R87). -/
theorem length_playTracks (b : Bindings) (count : Byte) : (playTracks b count).length = min count.toNat 4 := by
  simp [playTracks, Bindings.toList]

theorem wellFormed_play_iff (tracks : List Track) (count : Byte) (spt : Half) :
    WellFormed (.play tracks count spt) ↔ tracks.length = min count.toNat 4 := by
  simp [WellFormed, Instr.wellFormed]

theorem wellFormed_decodeCW (b : Bindings) (w : BitVec 32) : WellFormed (decodeCW b w) := by
  obtain h | h | h | h := opcode_cases (w.extractLsb' 30 2)
  · rw [decodeCW_init b h]; rfl
  · rw [decodeCW_play b h]
    exact (wellFormed_play_iff _ _ _).2 (length_playTracks _ _)
  · rw [decodeCW_stop b h]; rfl
  · rw [decodeCW_isPlaying b h]; rfl

/-- Settles O4: a match value under the mask is an opcode field, and each opcode has its row. -/
theorem commandWordsByMaskAndMatch : Obligations.CommandWordsByMaskAndMatch := by
  intro b w
  have hop := and_opcodeMask_eq_iff w
  exact ⟨fun h => decodeCW_init b ((hop 0b00#2).1 h), fun h => decodeCW_play b ((hop 0b01#2).1 h),
    fun h => decodeCW_stop b ((hop 0b10#2).1 h), fun h => decodeCW_isPlaying b ((hop 0b11#2).1 h),
    wellFormed_decodeCW b w⟩

/-! ## Format SV: the strobe vector's two bits (30_encoding.md R89) -/

section
variable {sv : BitVec 2}

theorem decodeSV_reset (hrst : sv.getLsbD 1 = true) : decodeSV sv = some .reset := by
  simp only [decodeSV, hrst, if_true]

theorem decodeSV_invoke (hrst : sv.getLsbD 1 = false) (htick : sv.getLsbD 0 = true) :
    decodeSV sv = some .invoke := by
  simp only [decodeSV, hrst, htick, Bool.false_eq_true, if_false, if_true]

@[simp] theorem decodeSV_zero : decodeSV 0b00#2 = none := rfl

end

/-- The match 0x1 under the mask 0x3: `tick` alone. -/
theorem and_tickMask_eq_iff (sv : BitVec 2) :
    sv &&& 0x3#2 = 0x1#2 ↔ sv.getLsbD 1 = false ∧ sv.getLsbD 0 = true := by
  revert sv; decide

/-- The match 0x2 under the mask 0x2: `rst`, whatever `tick` is. -/
theorem and_rstMask_eq_iff (sv : BitVec 2) : sv &&& 0x2#2 = 0x2#2 ↔ sv.getLsbD 1 = true := by
  revert sv; decide

/-- Settles O5: a match under a mask is a value of the strobe's two bits. -/
theorem strobeVectorsByMaskAndMatch : Obligations.StrobeVectorsByMaskAndMatch := by
  intro sv
  refine ⟨?none, ?invoke, ?reset⟩
  case none => rintro rfl; exact decodeSV_zero
  case invoke =>
    intro h
    obtain ⟨hrst, htick⟩ := (and_tickMask_eq_iff sv).1 h
    exact decodeSV_invoke hrst htick
  case reset => exact fun h => decodeSV_reset ((and_rstMask_eq_iff sv).1 h)

end Sys2Proof.Machine
end

section
/-! PROOFS. The sample generator (40_waveform_rom.md R100): the fields of the 10-bit index, what `SampleAt` answers
in each quadrant, and that its sum or difference never leaves a byte. -/

namespace Sys2Proof.Machine

/-! ## The fields of the index: the quadrant's two bits and the offset within it -/

/-- Bit 8 of the index: the quadrant reads the quarter table mirrored. -/
theorem index_getLsbD_eight (x : Nat) : (BitVec.ofNat 10 x).getLsbD 8 = decide (256 ≤ x % 512) := by
  simp only [BitVec.getLsbD_ofNat, Nat.testBit_eq_decide_div_mod_eq, show 8 < 10 by decide, decide_true, Bool.true_and,
    decide_eq_decide]
  omega

/-- Bit 9 of the index: the quadrant lies below the midpoint. -/
theorem index_getLsbD_nine (x : Nat) : (BitVec.ofNat 10 x).getLsbD 9 = decide (512 ≤ x % 1024) := by
  simp only [BitVec.getLsbD_ofNat, Nat.testBit_eq_decide_div_mod_eq, show 9 < 10 by decide, decide_true, Bool.true_and,
    decide_eq_decide]
  omega

theorem index_offset (x : Nat) : (BitVec.ofNat 10 x).extractLsb' 0 8 = BitVec.ofNat 8 (x % 256) := by
  apply BitVec.eq_of_toNat_eq
  simp only [BitVec.extractLsb'_toNat, BitVec.toNat_ofNat, Nat.shiftRight_zero]
  omega

theorem mirrored_offset (x : Nat) :
    255#8 - BitVec.ofNat 8 (x % 256) = BitVec.ofNat 8 (255 - x % 256) := by
  apply BitVec.eq_of_toNat_eq
  simp only [BitVec.toNat_sub, BitVec.toNat_ofNat]
  omega

/-! ## What `SampleAt` answers in each quadrant -/

/-- `SampleAt` with the index's fields read as numbers. -/
theorem sampleAt_eq (c : Config) (x : Nat) :
    sampleAt c x =
      if 512 ≤ x % 1024 then
        c.mid - readWave c (BitVec.ofNat 8 (if 256 ≤ x % 512 then 255 - x % 256 else x % 256))
      else
        c.mid + readWave c (BitVec.ofNat 8 (if 256 ≤ x % 512 then 255 - x % 256 else x % 256)) := by
  simp only [sampleAt, index_getLsbD_eight, index_getLsbD_nine, index_offset, mirrored_offset, decide_eq_true_eq]
  by_cases hmirror : 256 ≤ x % 512 <;> simp only [hmirror, if_true, if_false]

section
variable (c : Config) {x : Nat}

theorem sampleAt_quadrantI (hhi : x % 1024 < 256) :
    sampleAt c x = c.mid + readWave c (BitVec.ofNat 8 (x % 256)) := by
  rw [sampleAt_eq, if_neg (by omega), if_neg (by omega)]

theorem sampleAt_quadrantII (hlo : 256 ≤ x % 1024) (hhi : x % 1024 < 512) :
    sampleAt c x = c.mid + readWave c (BitVec.ofNat 8 (255 - x % 256)) := by
  rw [sampleAt_eq, if_neg (by omega), if_pos (by omega)]

theorem sampleAt_quadrantIII (hlo : 512 ≤ x % 1024) (hhi : x % 1024 < 768) :
    sampleAt c x = c.mid - readWave c (BitVec.ofNat 8 (x % 256)) := by
  rw [sampleAt_eq, if_pos (by omega), if_neg (by omega)]

theorem sampleAt_quadrantIV (hlo : 768 ≤ x % 1024) :
    sampleAt c x = c.mid - readWave c (BitVec.ofNat 8 (255 - x % 256)) := by
  rw [sampleAt_eq, if_pos (by omega), if_pos (by omega)]

end

/-! ## Exact arithmetic: admissibility keeps every entry at most the midpoint -/

theorem readWave_le_mid (c : Config) (i : Byte) : (readWave c i).toNat ≤ c.mid.toNat :=
  (readWave_le_peak c i).trans (peak_le_mid c)

/-- `mid_sub_wave` without the truncated subtraction. -/
theorem mid_sub_wave_add_wave (c : Config) (i : Byte) :
    (c.mid - readWave c i).toNat + (readWave c i).toNat = c.mid.toNat := by
  rw [mid_sub_wave, Nat.sub_add_cancel (readWave_le_mid c i)]

/-- Settles O23: one quadrant at a time, the quadrant's equation and then the midpoint's arithmetic, which is exact
because no table entry exceeds `MID` or `255 - MID`. -/
theorem sampleAtRebuildsThePeriod : Obligations.SampleAtRebuildsThePeriod := by
  intro c x
  refine ⟨?quadrantI, ?quadrantII, ?quadrantIII, ?quadrantIV⟩
  case quadrantI =>
    intro hhi
    rw [sampleAt_quadrantI c hhi, mid_add_wave]
  case quadrantII =>
    intro hlo hhi
    rw [sampleAt_quadrantII c hlo hhi, mid_add_wave]
  case quadrantIII =>
    intro hlo hhi
    rw [sampleAt_quadrantIII c hlo hhi, mid_sub_wave_add_wave]
  case quadrantIV =>
    intro hlo
    rw [sampleAt_quadrantIV c hlo, mid_sub_wave_add_wave]

end Sys2Proof.Machine
end

section
/-! PROOFS. The oscillator of a voice (42_oscillator.md R120 to R122): the fraction's nine-bit sum, what `Advance`
writes, and what a voice in pause and a sounding voice give. -/

namespace Sys2Proof.Machine

/-! ## The sum of the fractions (42_oscillator.md R120): nine bits hold it, its low byte and its carry -/

section
variable (a b : Byte)

theorem fractionSum_toNat : (a.zeroExtend 9 + b.zeroExtend 9).toNat = a.toNat + b.toNat := by
  have ha := a.isLt
  have hb := b.isLt
  simp only [BitVec.toNat_add, BitVec.toNat_setWidth]
  omega

theorem fractionSum_low :
    (a.zeroExtend 9 + b.zeroExtend 9).extractLsb' 0 8 = BitVec.ofNat 8 (a.toNat + b.toNat) := by
  apply BitVec.eq_of_toNat_eq
  rw [BitVec.extractLsb'_toNat, fractionSum_toNat, Nat.shiftRight_zero, BitVec.toNat_ofNat]

/-- The carry is one bit: the sum is at most 510. -/
theorem fractionSum_carry :
    ((a.zeroExtend 9 + b.zeroExtend 9).extractLsb' 8 1).zeroExtend 16 =
      BitVec.ofNat 16 ((a.toNat + b.toNat) / 256) := by
  have ha := a.isLt
  have hb := b.isLt
  apply BitVec.eq_of_toNat_eq
  rw [BitVec.toNat_setWidth, BitVec.extractLsb'_toNat, fractionSum_toNat, Nat.shiftRight_eq_div_pow,
    BitVec.toNat_ofNat]
  omega

end

/-! ## What `Advance` writes (42_oscillator.md R120) -/

section
variable (c : Config) (vc : Voice) (p : BitVec 7)

theorem advance_phaseFraction :
    (advance c vc p).phaseFraction = BitVec.ofNat 8 (vc.phaseFraction.toNat + (readFfrac c p).toNat) :=
  fractionSum_low _ _

theorem advance_phaseIndex :
    (advance c vc p).phaseIndex = BitVec.ofNat 16 (vc.phaseIndex.toNat + (readFint c p).toNat +
      (vc.phaseFraction.toNat + (readFfrac c p).toNat) / 256) := by
  rw [BitVec.ofNat_add, BitVec.ofNat_add, BitVec.ofNat_toNat, BitVec.ofNat_toNat, BitVec.setWidth_eq,
    BitVec.setWidth_eq, ← fractionSum_carry]
  rfl

/-- The frame of `Advance`: a voice that it leaves has the phase it wrote and is otherwise the voice it was given. -/
theorem advance_eq_with_phase :
    advance c vc p = { vc with
      phaseFraction := (advance c vc p).phaseFraction
      phaseIndex := (advance c vc p).phaseIndex } := rfl

end

/-- Settles O20: the frame of `Advance` with the two registers it writes. -/
theorem advanceAddsTheIncrementWithItsCarry : Obligations.AdvanceAddsTheIncrementWithItsCarry := by
  intro c vc p
  rw [← advance_phaseFraction, ← advance_phaseIndex]
  exact advance_eq_with_phase c vc p

/-! ## A voice in pause and a sounding voice (42_oscillator.md R121, R122) -/

theorem isPause_note (pn : BitVec 7) : isPause (0#1 ++ pn) = false := by
  have hpitch : (0#1 ++ pn).toNat = pn.toNat := by
    rw [BitVec.toNat_append, BitVec.toNat_zero, Nat.zero_shiftLeft, Nat.zero_or]
  rw [Bool.eq_false_iff, ne_eq, isPause_iff, hpitch]
  exact Nat.not_le.2 pn.isLt

theorem pitchIndex_note (pn : BitVec 7) : pitchIndex (0#1 ++ pn) = pn :=
  BitVec.extractLsb'_append_eq_right

section
variable (c : Config) {vc : Voice}

theorem emit_pause (h : isPause vc.currentPitch = true) : emit c vc = c.mid := by
  rw [emit, if_pos h]

theorem emit_sounding (h : isPause vc.currentPitch = false) : emit c vc = sampleAt c vc.phaseIndex.toNat := by
  rw [emit, if_neg (Bool.eq_false_iff.1 h)]

theorem voiceSample_pause (h : isPause vc.currentPitch = true) : voiceSample c vc = (vc, c.mid) := by
  rw [voiceSample, if_pos h]

/-- A sounding voice is advanced first; `Advance` keeps its pitch, so what is read after it is its emission. -/
theorem voiceSample_sounding (h : isPause vc.currentPitch = false) :
    voiceSample c vc =
      (advance c vc (pitchIndex vc.currentPitch), emit c (advance c vc (pitchIndex vc.currentPitch))) := by
  rw [voiceSample, if_neg (Bool.eq_false_iff.1 h), emit_sounding c ((advance_currentPitch ..).symm ▸ h)]

end

/-- Settles O27, by whether the voice's pitch is a pause. -/
theorem voiceSampleAdvancesThenReads : Obligations.VoiceSampleAdvancesThenReads := by
  intro c vc
  refine ⟨?pause, ?sounding⟩
  case pause =>
    intro hge
    have hpause := (isPause_iff vc.currentPitch).2 hge
    exact ⟨emit_pause c hpause, voiceSample_pause c hpause⟩
  case sounding =>
    intro pn hpitch
    have hsounds : isPause vc.currentPitch = false := hpitch ▸ isPause_note pn
    have hindex : pitchIndex vc.currentPitch = pn := hpitch ▸ pitchIndex_note pn
    exact ⟨emit_sounding c hsounds, hindex ▸ voiceSample_sounding c hsounds⟩

end Sys2Proof.Machine
end

section
/-! PROOFS. The tick of a voice by its sequencer state (43_track_sequencer.md R130): the Priming tick by what the
track holds (R134), and the Playing tick by the count it finds (R135). -/

namespace Sys2Proof.Machine

section
variable (v : VoiceId) {vc : Voice}

theorem tickVoice_priming (h : vc.seqState = .priming) : tickVoice v vc = primingTick v vc := by
  rw [tickVoice, h]

theorem tickVoice_playing (h : vc.seqState = .playing) : tickVoice v vc = playingTick v vc := by
  rw [tickVoice, h]

/-! ## The Priming tick (43_track_sequencer.md R134) -/

theorem primingTick_empty (h : vc.eventCount = 0) :
    primingTick v vc = .ok { vc with currentPitch := pause, seqState := .finished } :=
  if_pos h

/-- The pitch does not place the track's elements, so the delay read after the pause is written is the voice's own. -/
theorem primingTick_waits {d : Half} (hne : vc.eventCount ≠ 0) (hd : readTrkd vc 0 = some d) :
    primingTick v vc = .ok { vc with currentPitch := pause, remainingTicks := d, seqState := .playing } := by
  have hd' : readTrkd { vc with currentPitch := pause } 0 = some d := hd
  simp only [primingTick, hne, if_false, hd']

/-! ## The Playing tick (43_track_sequencer.md R135) -/

theorem playingTick_decrements (h : 2 ≤ vc.remainingTicks.toNat) :
    playingTick v vc = .ok (waitFor (vc.remainingTicks - 1) vc) := by
  rw [playingTick_eq, if_neg (by omega)]

theorem playingTick_consumes (h : vc.remainingTicks.toNat ≤ 1) :
    playingTick v vc = consume v (waitFor 0 vc) := by
  rw [playingTick_eq, if_pos h]

theorem waitFor_remainingTicks_self (vc : Voice) : waitFor vc.remainingTicks vc = vc := rfl

end

/-- Settles O15: the voice `PLAY` binds field by field, then the Priming tick by whether the track has an event. -/
theorem primingTickWaitsForEventZero : Obligations.PrimingTickWaitsForEventZero := by
  refine ⟨?bound, ?tick⟩
  case bound =>
    intro t
    exact ⟨boundVoice_seqState t, boundVoice_currentPitch t, boundVoice_eventCursor t, boundVoice_remainingTicks t⟩
  case tick =>
    intro v vc hpriming
    rw [tickVoice_priming v hpriming]
    exact ⟨primingTick_empty v, fun _ => primingTick_waits v⟩

/-- Settles O16, by the count on entry: the decrement leaves something to wait for exactly from 2 on. -/
theorem playingTickDecrementsThenConsumes : Obligations.PlayingTickDecrementsThenConsumes := by
  intro v vc hplaying
  rw [tickVoice_playing v hplaying]
  refine ⟨?waits, ?one, ?zero⟩
  case waits => exact playingTick_decrements v
  case one =>
    intro hone
    exact playingTick_consumes v (by simp [hone])
  case zero =>
    intro hzero
    have hself : waitFor 0 vc = vc := hzero ▸ waitFor_remainingTicks_self vc
    rw [playingTick_consumes v (by simp [hzero]), hself]

end Sys2Proof.Machine
end

section
/-! PROOFS. The mixer (44_mixer.md R150, R151): what `Mix` returns and what it writes back, with a session and without
one. -/

namespace Sys2Proof.Machine

section
variable (c : Config) {b : Block}

/-! ## What `Mix` returns -/

/-- The sum `Mix` divides fits its 10 bits: at most four amplitudes of one byte each (44_mixer.md R150). -/
theorem amplitudeSum_le (b : Block) : amplitudeSum c b ≤ b.trackCount.val * 255 := by
  have hbyte : ∀ a ∈ (activeVoices b.trackCount).map (fun v => (voiceSample c (b.voice v)).2.toNat), a ≤ 255 := by
    rintro _ ha
    obtain ⟨v, -, rfl⟩ := List.mem_map.1 ha
    exact Nat.le_of_lt_succ (voiceSample c (b.voice v)).2.isLt
  simpa [amplitudeSum] using List.sum_le_card_nsmul _ 255 hbyte

theorem mix_snd_toNat (h : b.trackCount ≠ 0) :
    (mix c b).2.toNat = amplitudeSum c b / b.trackCount.val := by
  rw [mix_snd, mixScale_toNat c h (amplitudeSum_le c b)]

theorem mix_of_trackCount_zero (h : b.trackCount = 0) : mix c b = (b, c.mid) := by
  simp only [mix, h]
  rfl

/-! ## What `Mix` writes back -/

theorem mix_fst_eq_with_voices (b : Block) : (mix c b).1 = { b with voices := (mix c b).1.voices } := by
  obtain ⟨-, -, hframe, -⟩ := sumVoices_spec c b 0 (activeVoices_nodup b.trackCount)
  exact hframe

/-- The active voices are distinct, so sampling them in order samples each once, from the registers it had. -/
theorem mix_fst_voice (b : Block) (v : VoiceId) :
    (mix c b).1.voice v = if b.active v then (voiceSample c (b.voice v)).1 else b.voice v := by
  obtain ⟨hsampled, hother, -, -⟩ := sumVoices_spec c b 0 (activeVoices_nodup b.trackCount)
  by_cases hv : b.active v
  · rw [if_pos hv]
    exact hsampled v ((mem_activeVoices _ _).2 hv)
  · rw [if_neg hv]
    exact hother v (fun hmem => hv ((mem_activeVoices _ _).1 hmem))

end

/-- Settles O28: the amplitude by whether there is a session, then the voices and the frame of the sampling loop. -/
theorem mixIsTheFlooredMean : Obligations.MixIsTheFlooredMean := by
  intro c b
  exact ⟨mix_of_trackCount_zero c, mix_snd_toNat c, mix_fst_eq_with_voices c b, mix_fst_voice c b⟩

end Sys2Proof.Machine
end

section
/-! PROOFS. The `INVOKE` step (45_scheduler.md R160, R167): what it answers while the engine is disabled. -/

namespace Sys2Proof.Machine

/-- A disabled engine only counts the event (45_scheduler.md R167). -/
theorem exec_invoke_disabled {s : State} (h : s.block.enabled = false) :
    exec .invoke s = .next { s with invocations := s.invocations + 1 } :=
  if_neg (Bool.eq_false_iff.1 h)

/-- Settles O31: the disabled branch touches no field but the count of invocations. -/
theorem disabledInvokeDoesNothing : Obligations.DisabledInvokeDoesNothing := by
  intro s hdisabled
  exact ⟨_, exec_invoke_disabled hdisabled, rfl, rfl, rfl, rfl, rfl⟩

end Sys2Proof.Machine
end

section
/-! PROOFS. The control commands (46_control_commands.md R171 to R175): what each command's arm answers, what `PLAY`
and `INIT` do with their operands, and the registers they leave. -/

namespace Sys2Proof.Machine

/-! ## The arm of each command -/

section
variable (s : State)

theorem exec_init (chan : Byte) :
    exec (.init chan) s = .next { s with block := initBlock s.config chan s.block } := rfl

theorem exec_play (tracks : List Track) (count : Byte) (spt : Half) :
    exec (.play tracks count spt) s = .next { s with block := playBlock s.config tracks count spt s.block } := rfl

theorem exec_stop : exec .stop s = .next { s with block := stopClear s.block } := rfl

theorem exec_isPlaying : exec .isPlaying s = .next { s with results := s.results ++ [s.block.isPlaying] } := rfl

end

/-! ## `PLAY` on the registers (46_control_commands.md R173) -/

/-- A voice within the list of tracks takes the track that stands there; log 14 is about the others. -/
theorem trackOperand_of_getElem? {tracks : List Track} {v : VoiceId} {t : Track} (h : tracks[v.val]? = some t) :
    trackOperand tracks v = t := by
  rw [trackOperand, List.getD_eq_getElem?_getD, h, Option.getD_some]

section
variable (c : Config) (tracks : List Track) {count : Byte} (spt : Half) {b : Block}

theorem playBlock_disabled (count : Byte) (h : b.enabled = false) : playBlock c tracks count spt b = b :=
  if_pos h

theorem playBlock_countRejected (h : count.toNat = 0 ∨ 4 < count.toNat) : playBlock c tracks count spt b = b := by
  rw [playBlock, dif_pos h, ite_self]

theorem playBlock_accepted (he : b.enabled = true) (hlo : 1 ≤ count.toNat) (hhi : count.toNat ≤ 4) :
    playBlock c tracks count spt b = startSession c tracks ⟨count.toNat, Nat.lt_succ_of_le hhi⟩ spt b := by
  rw [playBlock, if_neg (by simp [he]), dif_neg (by omega)]

/-- The frame of an accepted `PLAY`: `enabled`, `channel` and the pending sample keep their values. -/
theorem startSession_eq_with_session (n : Fin 5) (b : Block) :
    startSession c tracks n spt b = { b with
      trackCount := n
      samplesPerTick := spt
      subCycleCounter := c.subcycles
      sampleCounter := spt
      voices := (startSession c tracks n spt b).voices } := rfl

/-- Below the count a voice is bound to the track presented for it. -/
theorem startSession_voice_bound {n : Fin 5} {v : VoiceId} {t : Track} (hv : v.val < n.val)
    (ht : tracks[v.val]? = some t) : (startSession c tracks n spt b).voice v = boundVoice t := by
  rw [startSession_voice, if_pos hv, trackOperand_of_getElem? ht]

/-- From the count on a voice keeps what `StopClear` gave it. -/
theorem startSession_voice_cleared {n : Fin 5} {v : VoiceId} (hv : n.val ≤ v.val) :
    (startSession c tracks n spt b).voice v = Voice.cleared := by
  rw [startSession_voice, if_neg (Nat.not_lt.2 hv)]

end

/-- Settles O40, by the two guards of `PLAY`: each rejection keeps the registers, and what passes both starts the
session. -/
theorem playStartsASessionOrIsIgnored : Obligations.PlayStartsASessionOrIsIgnored := by
  intro tracks count spt s
  rw [exec_play]
  refine ⟨?disabled, ?countRejected, ?accepted⟩
  case disabled =>
    intro hdisabled
    rw [playBlock_disabled s.config tracks spt count hdisabled]
  case countRejected =>
    intro hcount
    rw [playBlock_countRejected s.config tracks spt hcount]
  case accepted =>
    intro henabled hlo hhi
    rw [playBlock_accepted s.config tracks spt henabled hlo hhi, startSession_eq_with_session]
    exact ⟨_, _, rfl, rfl, fun v t hv ht => startSession_voice_bound s.config tracks spt hv ht,
      fun v hv => startSession_voice_cleared s.config tracks spt hv⟩

/-! ## `INIT` on the registers (46_control_commands.md R172) -/

section
variable (c : Config) {chan : Byte} (b : Block)

theorem initBlock_valid (h : chan ∈ c.validChannels) :
    initBlock c chan b = { Block.atReset c with enabled := true, channel := chan } :=
  if_pos h

theorem initBlock_invalid (h : chan ∉ c.validChannels) :
    initBlock c chan b = { Block.atReset c with channel := b.channel } :=
  if_neg h

end

/-- Settles O39, by whether the channel is valid: either way the registers are the reset ones but for `enabled` and
`channel`. -/
theorem initBindsAValidChannel : Obligations.InitBindsAValidChannel := by
  intro chan s
  rw [exec_init]
  by_cases hvalid : chan ∈ s.config.validChannels
  · simp only [initBlock_valid s.config s.block hvalid, hvalid, decide_true, if_true, Block.atReset]
  · simp only [initBlock_invalid s.config s.block hvalid, hvalid, decide_false, if_false, Block.atReset]

/-! ## `STOP` and `ISPLAYING` (46_control_commands.md R174, R175) -/

/-- Settles O41: `STOP` is `StopClear`, whose voices are the cleared ones. -/
theorem stopClearsTheSession : Obligations.StopClearsTheSession := by
  intro s
  exact ⟨(stopClear s.block).voices, exec_stop s, stopClear_voice s.block⟩

/-- Under the invariants a voice still to finish is what a session is: R39 (g) gives one to every session, and without
a session no voice is active. -/
theorem isPlaying_iff_trackCount_ne_zero {s : State} (hinv : Inv s) :
    s.block.isPlaying = true ↔ s.block.trackCount ≠ 0 := by
  obtain ⟨-, -, -, -, hunfinished, -, -⟩ := hinv
  rw [Block.isPlaying_iff]
  refine ⟨?session, hunfinished⟩
  case session =>
    rintro ⟨v, hactive, -⟩ hzero
    rw [Block.active, hzero] at hactive
    exact Nat.not_lt_zero _ hactive

/-- Settles O43: the bit is the status output, which says whether an active voice is not Finished. -/
theorem isPlayingReturnsWhetherAVoiceIsUnfinished : Obligations.IsPlayingReturnsWhetherAVoiceIsUnfinished := by
  intro s
  exact ⟨s.block.isPlaying, exec_isPlaying s, Block.isPlaying_iff s.block, rfl, isPlaying_iff_trackCount_ne_zero⟩

end Sys2Proof.Machine
end

section
/-! PROOFS. The strobe `RESET` (70_reset_and_hazards.md R200): what its arm answers, the status outputs it leaves, and
the port samples whose step it is (60_exceptions.md R188). -/

namespace Sys2Proof.Machine

/-! ## The arm of `RESET`, and the status outputs it leaves -/

/-- `RESET` replaces the registers by those of R200's table; what has been observed stays (log 4). -/
theorem exec_reset (s : State) : exec .reset s = .next { s with block := Block.atReset s.config } := rfl

/-- Without a session no voice is active, so none is left to finish. -/
theorem isPlaying_of_trackCount_zero {b : Block} (h : b.trackCount = 0) : b.isPlaying = false := by
  rw [Block.isPlaying, h]
  rfl

@[simp] theorem atReset_isPlaying (c : Config) : (Block.atReset c).isPlaying = false :=
  isPlaying_of_trackCount_zero (atReset_trackCount c)

@[simp] theorem atReset_enabledOutput (c : Config) : (Block.atReset c).enabledOutput = false := rfl

/-! ## `RESET` wins at the ports (60_exceptions.md R188) -/

section
variable {s : State} {p : PortSample} {rest : List PortSample}

theorem fetch_rst (hinput : s.input = p :: rest) (hrst : p.sv.getLsbD 1 = true) :
    fetch s = .instr .reset { s with input := rest } := by
  simp only [fetch, hinput, hrst, if_true]

/-- The whole sample is taken from the ports (log 2), its command and its `tick` with it. -/
theorem step_rst (hinput : s.input = p :: rest) (hrst : p.sv.getLsbD 1 = true) :
    step s = exec .reset { s with input := rest } := by
  rw [step, fetch_rst hinput hrst]

end

/-- Settles O44: the block is R200's table for the state's configuration, and a sample with `rst` set runs the same
arm, which reads neither the ports nor the registers. -/
theorem resetSetsEveryRegister : Obligations.ResetSetsEveryRegister := by
  intro s
  refine ⟨Block.atReset s.config, exec_reset s, ?wins, atReset_enabled _, atReset_channel _, atReset_trackCount _,
    atReset_samplesPerTick _, atReset_subCycleCounter _, atReset_sampleCounter _, atReset_bufferedSample _,
    atReset_voice _, atReset_isPlaying _, atReset_enabledOutput _⟩
  case wins =>
    intro p rest hinput hmatch
    have hrst : p.sv.getLsbD 1 = true := (and_rstMask_eq_iff p.sv).1 hmatch
    rw [step_rst hinput hrst, exec_reset]

end Sys2Proof.Machine
end

section
/-! PROOFS. The encodings read back (30_encoding.md sections 2 to 4): the fields of an encoded command word, the side
operands of `PLAY`, decode after encode for each row, and an event word encoded again. -/

namespace Sys2Proof.Machine

/-! ## The fields of an encoded command word (30_encoding.md R86) -/

section
variable (op : BitVec 2) (count chan : Byte) (spt : Half)

/-- The opcode field stands above every operand. -/
theorem opcode_append (rest : BitVec 30) : (op ++ rest : BitVec 32).extractLsb' 30 2 = op :=
  BitVec.extractLsb'_append_eq_left

theorem initWord_opcode : (0b00#2 ++ 0#22 ++ chan : BitVec 32).extractLsb' 30 2 = 0b00#2 := by
  rw [BitVec.append_assoc]
  exact opcode_append 0b00#2 (0#22 ++ chan)

theorem initWord_chan : (0b00#2 ++ 0#22 ++ chan : BitVec 32).extractLsb' 0 8 = chan :=
  BitVec.extractLsb'_append_eq_right

theorem playWord_opcode : (0b01#2 ++ 0#6 ++ count ++ spt : BitVec 32).extractLsb' 30 2 = 0b01#2 := by
  rw [BitVec.append_assoc, BitVec.append_assoc]
  exact opcode_append 0b01#2 (0#6 ++ (count ++ spt))

theorem playWord_count : (0b01#2 ++ 0#6 ++ count ++ spt : BitVec 32).extractLsb' 16 8 = count := by
  rw [BitVec.extractLsb'_append_eq_of_le (by decide)]
  exact BitVec.extractLsb'_append_eq_right

theorem playWord_spt : (0b01#2 ++ 0#6 ++ count ++ spt : BitVec 32).extractLsb' 0 16 = spt :=
  BitVec.extractLsb'_append_eq_right

end

/-! ## The side operands of `PLAY` (30_encoding.md R87) -/

/-- A port beyond the list presents the empty track. -/
theorem toList_ofList {ts : List Track} (h : ts.length ≤ 4) :
    (Bindings.ofList ts).toList = ts ++ List.replicate (4 - ts.length) Track.empty := by
  match ts with
  | [] => rfl
  | [_] => rfl
  | [_, _] => rfl
  | [_, _, _] => rfl
  | [_, _, _, _] => rfl
  | _ :: _ :: _ :: _ :: _ :: _ => simp at h; omega

/-- The tracks of a well-formed `PLAY` are the ones its count takes from the ports that present them. -/
theorem playTracks_ofList {ts : List Track} {count : Byte} (h : ts.length = min count.toNat 4) :
    playTracks (Bindings.ofList ts) count = ts := by
  rw [playTracks, toList_ofList (by omega)]
  by_cases hcount : count.toNat ≤ 4
  · rw [List.take_left' (by omega)]
  · have hfull : 4 - ts.length = 0 := by omega
    rw [hfull, List.replicate_zero, List.append_nil, List.take_of_length_le (by omega)]

/-! ## Decode after encode, one lemma for each row that has operands -/

section
variable (v : VoiceId) (d : Half)

theorem decodeEV_wordOfEvent (e : Event) : decodeEV v (wordOfEvent e) = decodeEvent v e := by
  rw [decodeEV, eventOfWord_wordOfEvent]

theorem decode_encode_note (pn : BitVec 7) :
    decode (Instr.note v pn d).source (encode (.note v pn d)) = .ok (.note v pn d) := by
  simp only [Instr.source, encode, decode_bytes24, decodeEV_wordOfEvent, decodeEvent, pitchClass_note]

theorem decode_encode_rest : decode (Instr.rest v d).source (encode (.rest v d)) = .ok (.rest v d) := by
  have hclass : pitchClass 0xFF#8 = .rest := (pitchClass_spec _).2.1 rfl
  simp only [Instr.source, encode, decode_bytes24, decodeEV_wordOfEvent, decodeEvent, hclass]

theorem decode_encode_rsvd {p : Byte} (h : WellFormed (.rsvd v p d)) :
    decode (Instr.rsvd v p d).source (encode (.rsvd v p d)) = .ok (.rsvd v p d) := by
  obtain ⟨hge, hne⟩ := (wellFormed_rsvd_iff v p d).1 h
  have hclass : pitchClass p = .rsvd p := (pitchClass_spec p).2.2 hge hne
  simp only [Instr.source, encode, decode_bytes24, decodeEV_wordOfEvent, decodeEvent, hclass]

end

theorem decode_encode_init (chan : Byte) :
    decode (Instr.init chan).source (encode (.init chan)) = .ok (.init chan) := by
  simp only [Instr.source, encode, decode_bytes32]
  rw [decodeCW_init _ (initWord_opcode chan), initWord_chan]

theorem decode_encode_play {ts : List Track} {count : Byte} {spt : Half} (h : WellFormed (.play ts count spt)) :
    decode (Instr.play ts count spt).source (encode (.play ts count spt)) = .ok (.play ts count spt) := by
  simp only [Instr.source, encode, decode_bytes32]
  rw [decodeCW_play _ (playWord_opcode count spt), playWord_count, playWord_spt,
    playTracks_ofList ((wellFormed_play_iff ts count spt).1 h)]

/-- Settles O1, row by row; the rows without operands have one word each. -/
theorem decodeOfEncodeIsTheInstruction : Obligations.DecodeOfEncodeIsTheInstruction := by
  intro i hi
  cases i with
  | note v pn d => exact decode_encode_note v d pn
  | rest v d => exact decode_encode_rest v d
  | rsvd v p d => exact decode_encode_rsvd v d hi
  | init chan => exact decode_encode_init chan
  | play ts count spt => exact decode_encode_play hi
  | stop => rfl
  | isPlaying => rfl
  | invoke => rfl
  | reset => rfl

/-! ## An event word encoded again (30_encoding.md R81, R82) -/

/-- The pitch number of a note is its byte: bit 7 is 0. -/
theorem zero_append_pitch {p : Byte} (h : p.toNat < 128) : 0#1 ++ p.extractLsb' 0 7 = p := by
  revert p
  decide +kernel

/-- Whatever the class of an event, its instruction encodes to the event's word. -/
theorem encode_decodeEvent (v : VoiceId) (e : Event) : encode (decodeEvent v e) = bytes24 (wordOfEvent e) := by
  obtain ⟨p, d⟩ := e
  obtain ⟨hnote, hrest, hrsvd⟩ := pitchClass_spec p
  obtain hlt | rfl | ⟨hge, hne⟩ := pitch_cases p
  · simp only [decodeEvent, hnote hlt, encode, zero_append_pitch hlt]
  · simp only [decodeEvent, hrest rfl, encode]
  · simp only [decodeEvent, hrsvd hge hne, encode]

/-- An event comes from the track of the voice it is decoded for. -/
theorem source_decodeEvent (v : VoiceId) (e : Event) : (decodeEvent v e).source = .track v := by
  rw [decodeEvent]
  split <;> rfl

/-- Settles O3: a word is the canonical word of its fields. -/
theorem eventWordsEncodeBack : Obligations.EventWordsEncodeBack := by
  intro v w
  refine ⟨?_, source_decodeEvent v _, decode_bytes24 v w⟩
  rw [decodeEV, encode_decodeEvent, wordOfEvent_eventOfWord]

/-- Settles O6, by evaluating the decoder on each of the nine words. -/
theorem wordsOfTheSpecDecode : Obligations.WordsOfTheSpecDecode := by
  refine ⟨?_, ?_, ?_, ?_, ?_, ?_, ?_, ?_, ?_⟩ <;> decide

end Sys2Proof.Machine
end

section
/-! PROOFS. One step at the ports (00_scope.md R8, 60_exceptions.md R188): the event that each kind of port sample
is, and what its instruction leaves outside the registers. -/

namespace Sys2Proof.Machine

/-! ## What the ports present (30_encoding.md R89, 60_exceptions.md R188) -/

section
variable {s : State} {p : PortSample} {rest : List PortSample}

/-- A command without `rst` beside it is the event; its cycle's strobe is still to come. -/
theorem step_command {c : Command} (hinput : s.input = p :: rest) (hrst : p.sv.getLsbD 1 = false)
    (hcmd : p.cmd = some c) :
    step s = exec (decodeCW c.tracks c.word) { s with input := afterCommand p rest } := by
  simp only [step, fetch, hinput, hrst, hcmd, Bool.false_eq_true, if_false]

/-- A strobe vector without a command is the event it decodes to. -/
theorem step_strobe {i : Instr} (hinput : s.input = p :: rest) (hcmd : p.cmd = none) (hsv : decodeSV p.sv = some i) :
    step s = exec i { s with input := rest } := by
  by_cases hrst : p.sv.getLsbD 1 = true
  · have hi : i = .reset := by rw [decodeSV_reset hrst] at hsv; exact (Option.some.inj hsv).symm
    rw [step_rst hinput hrst, hi]
  · simp only [step, fetch, hinput, hrst, hcmd, hsv, if_false, Bool.false_eq_true]

/-- A cycle with neither is taken, and nothing runs. -/
theorem step_quiet (hinput : s.input = p :: rest) (hcmd : p.cmd = none) (hsv : p.sv = 0b00#2) :
    step s = .next { s with input := rest } := by
  have hrst : p.sv.getLsbD 1 = false := by rw [hsv]; rfl
  have hnone : decodeSV p.sv = none := by rw [hsv]; rfl
  simp only [step, fetch, hinput, hrst, hcmd, hnone, if_false, Bool.false_eq_true]

end

/-- The command of a cycle without a strobe takes the whole sample. -/
@[simp] theorem afterCommand_alone (cmd : Option Command) (rest : List PortSample) :
    afterCommand ⟨0#2, cmd⟩ rest = rest :=
  if_pos rfl

/-- The command of a cycle with `tick` leaves the sample of the strobe alone (log 16). -/
@[simp] theorem afterCommand_tick (cmd : Option Command) (rest : List PortSample) :
    afterCommand ⟨0b01#2, cmd⟩ rest = ⟨0b01#2, none⟩ :: rest :=
  if_neg (show (0b01#2 : BitVec 2) ≠ 0#2 by decide)

/-- The byte of a strobe vector decodes as the vector: its two low bits are read (log 10). -/
theorem decode_strobe_ok_iff (b : Byte) (i : Instr) :
    decode .strobe [b] = .ok i ↔ decodeSV (b.extractLsb' 0 2) = some i := by
  simp only [decode]
  cases decodeSV (b.extractLsb' 0 2) <;> simp

/-- Settles O7: each word is presented without the other, and decodes as its port reads it. -/
theorem stepRunsThePresentedWord : Obligations.StepRunsThePresentedWord := by
  intro s rest i
  refine ⟨?command, ?strobe⟩
  case command =>
    intro c hinput hdecode
    have hi : decodeCW c.tracks c.word = i := by rw [decode_bytes32] at hdecode; exact Except.ok.inj hdecode
    rw [step_command hinput (by simp) rfl, afterCommand_alone, hi]
  case strobe =>
    intro sv hinput hdecode
    have hlow : (0#6 ++ sv).extractLsb' 0 2 = sv := BitVec.extractLsb'_append_eq_right
    rw [decode_strobe_ok_iff, hlow] at hdecode
    exact step_strobe hinput rfl hdecode

/-- Settles O10: a match under a mask is a value of the vector's bits. -/
theorem strobeVectorSelectsTheEvent : Obligations.StrobeVectorSelectsTheEvent := by
  intro s p rest hinput
  refine ⟨?reset, ?invoke, ?quiet⟩
  case reset => exact fun h => step_rst hinput ((and_rstMask_eq_iff p.sv).1 h)
  case invoke =>
    intro h hcmd
    obtain ⟨hrst, htick⟩ := (and_tickMask_eq_iff p.sv).1 h
    exact step_strobe hinput hcmd (decodeSV_invoke hrst htick)
  case quiet => exact fun hsv hcmd => step_quiet hinput hcmd hsv

/-! ## What an instruction leaves outside the registers -/

/-- The fields of the state that an `INVOKE` leaves, and the sink it writes in a sample step. -/
theorem exec_invoke_frame {s t : State} (h : exec .invoke s = .next t) :
    t.config = s.config ∧ t.input = s.input ∧ t.results = s.results ∧ t.invocations = s.invocations + 1 ∧
    (t.out = s.out ∨ (s.block.enabled = true ∧ s.block.subCycleCounter = 1 ∧
      t.out = s.out ++ [⟨s.invocations + 1, s.block.bufferedSample, s.block.channel⟩])) := by
  obtain ⟨-, rfl⟩ | ⟨hen, hone, rfl⟩ | ⟨-, -, -, -, b', -, rfl⟩ | ⟨-, -, -, rfl⟩ := execInvoke_cases h
  · exact ⟨rfl, rfl, rfl, rfl, .inl rfl⟩
  · exact ⟨rfl, rfl, rfl, rfl, .inr ⟨hen, hone, rfl⟩⟩
  · exact ⟨rfl, rfl, rfl, rfl, .inl rfl⟩
  · exact ⟨rfl, rfl, rfl, rfl, .inl rfl⟩

/-- The fields of the state that every other instruction leaves. -/
theorem exec_frame_of_ne_invoke {i : Instr} {s t : State} (hi : i ≠ .invoke) (h : exec i s = .next t) :
    t.config = s.config ∧ t.input = s.input ∧ t.out = s.out := by
  cases i with
  | invoke => exact absurd rfl hi
  | note v pn d => cases h; exact ⟨rfl, rfl, rfl⟩
  | rest v d => cases h; exact ⟨rfl, rfl, rfl⟩
  | rsvd v p d => cases h; exact ⟨rfl, rfl, rfl⟩
  | init chan => cases h; exact ⟨rfl, rfl, rfl⟩
  | play ts count spt => cases h; exact ⟨rfl, rfl, rfl⟩
  | stop => cases h; exact ⟨rfl, rfl, rfl⟩
  | isPlaying => cases h; exact ⟨rfl, rfl, rfl⟩
  | reset => cases h; exact ⟨rfl, rfl, rfl⟩

/-- No instruction writes the configuration, and none takes a port sample: `step` has done so before it runs. -/
theorem exec_config_input {i : Instr} {s t : State} (h : exec i s = .next t) :
    t.config = s.config ∧ t.input = s.input := by
  by_cases hi : i = .invoke
  · subst hi
    obtain ⟨hconfig, hinput, -⟩ := exec_invoke_frame h
    exact ⟨hconfig, hinput⟩
  · obtain ⟨hconfig, hinput, -⟩ := exec_frame_of_ne_invoke hi h
    exact ⟨hconfig, hinput⟩

/-- Settles O11: the command leaves its cycle's strobe as the next sample, and no instruction takes one. -/
theorem commandRunsBeforeTheStrobeOfItsCycle : Obligations.CommandRunsBeforeTheStrobeOfItsCycle := by
  intro s c rest hinput
  have hstep : step s = exec (decodeCW c.tracks c.word) { s with input := ⟨0b01#2, none⟩ :: rest } := by
    rw [step_command hinput (by simp) rfl, afterCommand_tick]
  refine ⟨hstep, fun t ht => ?_⟩
  have hleft : t.input = ⟨0b01#2, none⟩ :: rest := (exec_config_input (hstep ▸ ht)).2
  exact step_strobe hleft rfl rfl

end Sys2Proof.Machine
end

section
/-! PROOFS. The track events (43_track_sequencer.md R131 to R133): each is one load of a pitch byte at its voice; what
such a load leaves unchanged; and the tick that runs it. -/

namespace Sys2Proof.Machine

/-! ## Every event is a load of its pitch byte -/

section
variable (v : VoiceId) (d : Half) (s : State)

/-- The instruction of an event, whatever its class, loads the event's pitch byte. -/
theorem exec_decodeEvent (e : Event) :
    exec (decodeEvent v e) s = .next (s.setVoice v (loadPitch e.pitch (s.block.voice v))) := by
  rw [← loadEvent_eq, decodeEvent, loadEvent]
  cases pitchClass e.pitch <;> rfl

/-- An instruction of one of the three rows of format EV loads some pitch byte. -/
theorem exec_event_is_load {i : Instr}
    (hi : (∃ pn delay, i = .note v pn delay) ∨ (∃ delay, i = .rest v delay) ∨
      (∃ pitch delay, i = .rsvd v pitch delay)) :
    ∃ p, exec i s = .next (s.setVoice v (loadPitch p (s.block.voice v))) := by
  obtain ⟨pn, delay, rfl⟩ | ⟨delay, rfl⟩ | ⟨pitch, delay, rfl⟩ := hi
  · exact ⟨_, exec_note v delay s pn⟩
  · exact ⟨_, exec_rest v delay s⟩
  · exact ⟨_, exec_rsvd v delay s pitch⟩

end

/-- Settles O12: the load, and then the sample of a voice that holds a note's pitch. -/
theorem noteIsLoadedAndSounds : Obligations.NoteIsLoadedAndSounds := by
  intro v pn delay s
  refine ⟨loadNote pn (s.block.voice v), rfl, exec_note v delay s pn, ?_⟩
  have hsounds : isPause (loadNote pn (s.block.voice v)).currentPitch = false := isPause_note pn
  have hindex : pitchIndex (loadNote pn (s.block.voice v)).currentPitch = pn := pitchIndex_note pn
  rw [voiceSample_sounding _ hsounds, hindex, emit_sounding _ (by rw [advance_currentPitch]; exact hsounds)]

/-- Settles O13: the sentinel and every reserved byte are pauses. -/
theorem restAndReservedPitchesAreSilent : Obligations.RestAndReservedPitchesAreSilent := by
  intro v pitch delay s
  refine ⟨exec_rest v delay s, exec_rsvd v delay s pitch, ?_⟩
  rintro vc (hrest | ⟨hwf, hrsvd⟩)
  · exact voiceSample_pause s.config (by rw [hrest]; rfl)
  · obtain ⟨hge, -⟩ := (wellFormed_rsvd_iff v pitch delay).1 hwf
    exact voiceSample_pause s.config (by rw [hrsvd]; exact (isPause_iff pitch).2 hge)

/-! ## What a load leaves unchanged -/

/-- A load moves no element of any track space. -/
theorem readEvent_setVoice_loadPitch (b : Block) (v w : VoiceId) (p : Byte) (k : Half) :
    readEvent ((b.setVoice v (loadPitch p (b.voice v))).voice w) k = readEvent (b.voice w) k := by
  by_cases hw : w = v
  · subst hw
    rw [Block.voice_setVoice_self, readEvent_loadPitch]
  · rw [Block.voice_setVoice_ne _ _ hw]

/-- Settles O14: a load writes two registers of one voice. -/
theorem eventsChangeOnlyPitchAndCursorOfTheirVoice : Obligations.EventsChangeOnlyPitchAndCursorOfTheirVoice := by
  intro v i s t hi ht
  obtain ⟨p, hload⟩ := exec_event_is_load v s hi
  cases hload.symm.trans ht
  refine ⟨rfl, rfl, rfl, rfl, rfl, rfl, rfl, rfl, rfl, rfl, rfl, rfl,
    fun w hw => Block.voice_setVoice_ne _ _ hw, ?_, ?_, ?_, ?_, ?_, ?tracks, fun k => rfl, fun p => ⟨rfl, rfl⟩⟩
  case tracks =>
    intro w k
    have hread := readEvent_setVoice_loadPitch s.block v w p k
    exact ⟨congrArg (Option.map Event.pitch) hread, congrArg (Option.map Event.delay) hread⟩
  all_goals simp [SamePhase]

/-! ## The tick that runs an event (43_track_sequencer.md R135, R136, R137) -/

theorem tickVoice_finished (v : VoiceId) {vc : Voice} (h : vc.seqState = .finished) : tickVoice v vc = .ok vc := by
  rw [tickVoice, h]

/-- Settles O17: the Finished tick is the identity, and 0xFF is a pause. -/
theorem finishedTickChangesNothing : Obligations.FinishedTickChangesNothing := by
  intro c v vc hfinished
  refine ⟨tickVoice_finished v hfinished, fun hpitch => ?_⟩
  rw [voiceSample_pause c (by rw [hpitch]; rfl)]

/-- A Playing voice with at most one tick left loads the event at its cursor and goes on from there. -/
theorem tickVoice_loads {v : VoiceId} {vc : Voice} {e : Event} (hplaying : vc.seqState = .playing)
    (hdue : vc.remainingTicks.toNat ≤ 1) (he : readEvent vc vc.eventCursor = some e) :
    tickVoice v vc = afterLoad v (loadPitch e.pitch (waitFor 0 vc)) := by
  rw [tickVoice_playing v hplaying, playingTick_consumes v hdue]
  exact consume_eq_afterLoad he

/-- Settles O8: the decoded instruction loads the event's pitch byte, as the tick does. -/
theorem tickRunsTheDecodedEvent : Obligations.TickRunsTheDecodedEvent := by
  intro s v e i hplaying hdue he hdecode
  have hi : decodeEvent v e = i := by
    rw [decode_bytes24, decodeEV_wordOfEvent] at hdecode
    exact Except.ok.inj hdecode
  refine ⟨_, hi ▸ exec_decodeEvent v _ e, ?_⟩
  simp only [State.setVoice_block, Block.voice_setVoice_self]
  exact tickVoice_loads hplaying hdue he

end Sys2Proof.Machine
end

section
/-! PROOFS. The branches of `INVOKE` (45_scheduler.md R160 to R164): what each one answers, and the registers it
leaves. -/

namespace Sys2Proof.Machine

/-! ## The registers a sample step leaves (45_scheduler.md R161) -/

/-- The sub-cycle counter plays no part in the mix. -/
theorem sampleStep_eq (c : Config) (b : Block) :
    sampleStep c b = { b with
      subCycleCounter := c.subcycles
      bufferedSample := (mix c b).2
      sampleCounter := if b.trackCount = 0 then b.sampleCounter else b.sampleCounter - 1
      voices := (mix c b).1.voices } := by
  obtain ⟨hframe, hvoices⟩ := sampleStep_spec c b
  have hv : (sampleStep c b).voices = (mix c b).1.voices :=
    VoiceFile.eq_of_get (fun v => (hvoices v).trans (mix_fst_voice c b v).symm)
  rw [hframe, hv, mix_snd]

section
variable (c : Config) (b : Block)

@[simp] theorem sampleStep_enabled : (sampleStep c b).enabled = b.enabled := by rw [sampleStep_eq]
@[simp] theorem sampleStep_channel : (sampleStep c b).channel = b.channel := by rw [sampleStep_eq]
@[simp] theorem sampleStep_trackCount : (sampleStep c b).trackCount = b.trackCount := by rw [sampleStep_eq]
@[simp] theorem sampleStep_samplesPerTick : (sampleStep c b).samplesPerTick = b.samplesPerTick := by
  rw [sampleStep_eq]
@[simp] theorem sampleStep_subCycleCounter : (sampleStep c b).subCycleCounter = c.subcycles := by rw [sampleStep_eq]
@[simp] theorem sampleStep_bufferedSample : (sampleStep c b).bufferedSample = (mix c b).2 := by rw [sampleStep_eq]

theorem sampleStep_sampleCounter :
    (sampleStep c b).sampleCounter = if b.trackCount = 0 then b.sampleCounter else b.sampleCounter - 1 := by
  rw [sampleStep_eq]

theorem sampleStep_voice (v : VoiceId) :
    (sampleStep c b).voice v = if b.active v then (voiceSample c (b.voice v)).1 else b.voice v :=
  (sampleStep_spec c b).2 v

/-- A sample step leaves every sequencer register (42_oscillator.md R122). -/
theorem sampleStep_sequencer (v : VoiceId) : SameSequencer ((sampleStep c b).voice v) (b.voice v) := by
  rw [sampleStep_voice]
  split
  · exact voiceSample_sequencer c _
  · exact ⟨rfl, rfl, rfl, rfl, rfl, rfl⟩

end

/-! ## What the branches of an enabled `INVOKE` answer -/

section
variable {s : State} (henabled : s.block.enabled = true)
include henabled

theorem exec_invoke_sample (hone : s.block.subCycleCounter = 1) :
    exec .invoke s = .next { s with
      invocations := s.invocations + 1
      out := s.out ++ [⟨s.invocations + 1, s.block.bufferedSample, s.block.channel⟩]
      block := sampleStep s.config s.block } := by
  have hzero : s.block.subCycleCounter - 1 = 0 := by rw [hone]; rfl
  exact (if_pos henabled).trans (if_pos hzero)

theorem exec_invoke_count (hne : s.block.subCycleCounter ≠ 1)
    (hno : s.block.trackCount = 0 ∨ s.block.sampleCounter ≠ 0) :
    exec .invoke s = .next { s with
      invocations := s.invocations + 1
      block := { s.block with subCycleCounter := s.block.subCycleCounter - 1 } } := by
  have hpos : s.block.subCycleCounter - 1 ≠ 0 := fun h => hne (by bv_omega)
  have hpass : ¬ (s.block.trackCount ≠ 0 ∧ s.block.sampleCounter = 0) := by tauto
  exact (if_pos henabled).trans ((if_neg hpos).trans (if_neg hpass))

theorem exec_invoke_tickPass {b : Block} (hne : s.block.subCycleCounter ≠ 1) (hsession : s.block.trackCount ≠ 0)
    (hdue : s.block.sampleCounter = 0)
    (hpass : tickPass { s.block with subCycleCounter := s.block.subCycleCounter - 1 } = .ok b) :
    exec .invoke s = .next { s with invocations := s.invocations + 1, block := b } := by
  have hpos : s.block.subCycleCounter - 1 ≠ 0 := fun h => hne (by bv_omega)
  have hboth : s.block.trackCount ≠ 0 ∧ s.block.sampleCounter = 0 := ⟨hsession, hdue⟩
  simp only [exec, execInvoke]
  rw [if_pos henabled, if_neg hpos, if_pos hboth, hpass]

end

/-- Settles O32: the write record of the branch, with the registers the sample step leaves. -/
theorem sampleStepWritesThenMixes : Obligations.SampleStepWritesThenMixes := by
  intro s henabled hone
  rw [exec_invoke_sample henabled hone, sampleStep_eq]

/-- Settles O33: neither branch that does more is taken. -/
theorem bareSubCycleOnlyCounts : Obligations.BareSubCycleOnlyCounts := by
  intro s henabled hne hno
  exact exec_invoke_count henabled hne hno

/-! ## The tick pass (45_scheduler.md R163, R164) -/

/-- A tick pass completes when the tick of every active voice does. -/
theorem tickPass_completes {b : Block} (h : ∀ v, b.active v → ∃ vc, tickVoice v (b.voice v) = .ok vc) :
    ∃ b', tickPass b = .ok b' := by
  obtain ⟨b', hb'⟩ := tickVoices_completes (b := { b with sampleCounter := b.samplesPerTick })
    (activeVoices_nodup b.trackCount) (fun v hv => h v ((mem_activeVoices _ _).1 hv))
  exact ⟨_, by rw [tickPass, hb']⟩

/-- What a tick pass leaves when the voices' ticks are known: the session lasts if one of them is not Finished, and
ends otherwise. -/
theorem tickPass_of_ticked {b : Block} {ticked : VoiceId → Voice}
    (hticked : ∀ v, b.active v → tickVoice v (b.voice v) = .ok (ticked v)) :
    ((∃ v, b.active v ∧ (ticked v).seqState ≠ .finished) → ∃ vs : VoiceFile,
      tickPass b = .ok { b with sampleCounter := b.samplesPerTick, voices := vs } ∧
      ∀ v, vs.get v = if b.active v then ticked v else b.voice v) ∧
    ((∀ v, b.active v → (ticked v).seqState = .finished) → tickPass b = .ok (stopClear b)) := by
  obtain ⟨b', hpass⟩ := tickPass_completes (fun v hv => ⟨_, hticked v hv⟩)
  obtain ⟨b1, hframe, hactive, hother, hend⟩ := tickPass_spec hpass
  have hvoice : ∀ v, b.active v → b1.voice v = ticked v := fun v hv =>
    Except.ok.inj ((hactive v hv).symm.trans (hticked v hv))
  refine ⟨?lasts, ?ends⟩
  case lasts =>
    rintro ⟨w, hw, hunfinished⟩
    obtain ⟨hall, -⟩ | ⟨-, hlasts⟩ := hend
    · exact absurd (hvoice w hw ▸ hall w hw) hunfinished
    · refine ⟨b1.voices, ?_, fun v => ?_⟩
      · rw [hpass, hlasts, ← hframe]
      · by_cases hv : b.active v
        · rw [if_pos hv]; exact hvoice v hv
        · rw [if_neg hv]; exact hother v hv
  case ends =>
    intro hall
    obtain ⟨-, hends⟩ | ⟨⟨w, hw, hunfinished⟩, -⟩ := hend
    · rw [hpass, hends, hframe]
      rfl
    · exact absurd (hall w hw) (hvoice w hw ▸ hunfinished)

/-- Settles O34: the tick pass of the branch, by whether a ticked voice is left unfinished. -/
theorem tickPassTicksEveryActiveVoice : Obligations.TickPassTicksEveryActiveVoice := by
  intro s ticked henabled hne hsession hdue hticked
  obtain ⟨hlasts, hends⟩ :=
    tickPass_of_ticked (b := { s.block with subCycleCounter := s.block.subCycleCounter - 1 }) hticked
  refine ⟨fun hunfinished => ?_, fun hall => ?_⟩
  · obtain ⟨vs, hpass, hvs⟩ := hlasts hunfinished
    exact ⟨vs, exec_invoke_tickPass henabled hne hsession hdue hpass, hvs⟩
  · exact exec_invoke_tickPass henabled hne hsession hdue (hends hall)

end Sys2Proof.Machine
end

section
/-! PROOFS. What a step can do to the registers and to the sink, said once: a relation between the registers before and
after, and the lemmas that every `INVOKE` and every step stand in it. The invariants are shown of the relation. -/

namespace Sys2Proof.Machine

/-- What an `INVOKE` can do to the registers (45_scheduler.md R160 to R164, R167). -/
inductive InvokeMove (c : Config) (b : Block) : Block → Prop where
  /-- A disabled engine changes nothing (R167). -/
  | disabled (henabled : b.enabled = false) : InvokeMove c b b
  /-- The sample step (R161). -/
  | sample (henabled : b.enabled = true) (hone : b.subCycleCounter = 1) : InvokeMove c b (sampleStep c b)
  /-- A tick pass that leaves an active voice unfinished (R163). -/
  | tickLasts (henabled : b.enabled = true) (hne : b.subCycleCounter ≠ 1) (hsession : b.trackCount ≠ 0)
      (hdue : b.sampleCounter = 0) (vs : VoiceFile)
      (hticked : ∀ v, b.active v → tickVoice v (b.voice v) = .ok (vs.get v))
      (hother : ∀ v, ¬ b.active v → vs.get v = b.voice v)
      (hunfinished : ∃ v, b.active v ∧ (vs.get v).seqState ≠ .finished) :
      InvokeMove c b { b with
        subCycleCounter := b.subCycleCounter - 1
        sampleCounter := b.samplesPerTick
        voices := vs }
  /-- A tick pass that finds every active voice Finished (R164). -/
  | tickEnds (henabled : b.enabled = true) (hne : b.subCycleCounter ≠ 1) (hsession : b.trackCount ≠ 0)
      (hdue : b.sampleCounter = 0)
      (hfinished : ∀ v, b.active v → ∃ vc, tickVoice v (b.voice v) = .ok vc ∧ vc.seqState = .finished) :
      InvokeMove c b (stopClear { b with subCycleCounter := b.subCycleCounter - 1 })
  /-- A bare sub-cycle (R160). -/
  | count (henabled : b.enabled = true) (hne : b.subCycleCounter ≠ 1)
      (hno : b.trackCount = 0 ∨ b.sampleCounter ≠ 0) :
      InvokeMove c b { b with subCycleCounter := b.subCycleCounter - 1 }

/-- What one event can do to the registers. -/
inductive BlockMove (c : Config) (b : Block) : Block → Prop where
  /-- `ISPLAYING`, a rejected `PLAY`, or nothing presented. -/
  | keeps : BlockMove c b b
  /-- `RESET` (70_reset_and_hazards.md R200). -/
  | reset : BlockMove c b (Block.atReset c)
  /-- `INIT` (46_control_commands.md R172). -/
  | init (chan : Byte) : BlockMove c b (initBlock c chan b)
  /-- An accepted `PLAY` (46_control_commands.md R173). -/
  | play (henabled : b.enabled = true) (tracks : List Track) (n : Fin 5) (hn : n ≠ 0) (spt : Half) :
      BlockMove c b (startSession c tracks n spt b)
  /-- `STOP` (46_control_commands.md R174). -/
  | stop : BlockMove c b (stopClear b)
  /-- `INVOKE` (45_scheduler.md R160). -/
  | invoke {b' : Block} (hmove : InvokeMove c b b') : BlockMove c b b'

/-! ## `INVOKE` -/

/-- Every `INVOKE` makes one of the moves. -/
theorem exec_invoke_move {s t : State} (h : exec .invoke s = .next t) : InvokeMove s.config s.block t.block := by
  obtain ⟨hdis, rfl⟩ | ⟨hen, hone, rfl⟩ | ⟨hen, hne, hsession, hdue, b', hpass, rfl⟩ | ⟨hen, hne, hno, rfl⟩ :=
    execInvoke_cases h
  · exact .disabled hdis
  · exact .sample hen hone
  · obtain ⟨b1, hframe, hticked, hother, ⟨hall, rfl⟩ | ⟨hunfinished, rfl⟩⟩ := tickPass_spec hpass
    · rw [hframe]
      exact .tickEnds hen hne hsession hdue (fun v hv => ⟨_, hticked v hv, hall v hv⟩)
    · rw [hframe]
      exact .tickLasts hen hne hsession hdue _ hticked hother hunfinished
  · exact .count hen hne hno

/-! ## Any event, and a step -/

/-- `PLAY` starts a session or keeps the registers. -/
theorem playBlock_move (c : Config) (tracks : List Track) (count : Byte) (spt : Half) (b : Block) :
    BlockMove c b (playBlock c tracks count spt b) := by
  by_cases hdis : b.enabled = false
  · rw [playBlock_disabled c tracks spt count hdis]; exact .keeps
  · by_cases hcount : count.toNat = 0 ∨ 4 < count.toNat
    · rw [playBlock_countRejected c tracks spt hcount]; exact .keeps
    · have hen : b.enabled = true := by simpa using hdis
      rw [playBlock_accepted c tracks spt hen (by omega) (by omega)]
      refine .play hen tracks _ (fun hn => hcount (.inl ?_)) spt
      exact congrArg Fin.val hn

/-- Every event of the step model makes one of the moves. -/
theorem exec_move {i : Instr} {s t : State} (hi : IsEvent i) (h : exec i s = .next t) :
    BlockMove s.config s.block t.block := by
  cases i with
  | note v pn d => exact hi.elim
  | rest v d => exact hi.elim
  | rsvd v p d => exact hi.elim
  | init chan => cases h; exact .init chan
  | play tracks count spt => cases h; exact playBlock_move _ tracks count spt _
  | stop => cases h; exact .stop
  | isPlaying => cases h; exact .keeps
  | invoke => exact .invoke (exec_invoke_move h)
  | reset => cases h; exact .reset

/-- Settles O35: only `INVOKE` reaches the sink, in its sample branch. -/
theorem onlySampleStepsWriteTheSink : Obligations.OnlySampleStepsWriteTheSink := by
  intro i s t h
  by_cases hi : i = .invoke
  · subst hi
    obtain ⟨-, -, -, -, hout | ⟨hen, hone, hout⟩⟩ := exec_invoke_frame h
    · exact .inl hout
    · exact .inr ⟨rfl, hen, hone, hout⟩
  · obtain ⟨-, -, hout⟩ := exec_frame_of_ne_invoke hi h
    exact .inl hout

/-- Every step makes one of the moves, keeps the configuration, and appends to the sink no byte but the pending
sample. -/
theorem step_move {s t : State} (h : step s = .next t) :
    t.config = s.config ∧ BlockMove s.config s.block t.block ∧
    (t.out = s.out ∨ ∃ o, t.out = s.out ++ [o] ∧ o.data = s.block.bufferedSample) := by
  obtain ⟨rest, rfl⟩ | ⟨i, rest, hi, hexec⟩ := step_cases h
  · exact ⟨rfl, .keeps, .inl rfl⟩
  · refine ⟨(exec_config_input hexec).1, exec_move (s := { s with input := rest }) hi hexec, ?_⟩
    obtain hout | ⟨-, -, -, hout⟩ := onlySampleStepsWriteTheSink i _ t hexec
    · exact .inl hout
    · exact .inr ⟨_, hout, rfl⟩

/-- Settles O52: the tables are fields of the configuration. -/
theorem stepKeepsTheConfiguration : Obligations.StepKeepsTheConfiguration := by
  intro s t h
  obtain ⟨hconfig, -, -⟩ := step_move h
  rw [hconfig]
  exact ⟨rfl, fun i => rfl, fun p => ⟨rfl, rfl⟩⟩

end Sys2Proof.Machine
end

section
/-! PROOFS. The waveform as a whole (40_waveform_rom.md R103 to R105): `SampleAt` by quadrant and offset, its
crossings, symmetries and monotone quarters, and the range of every sample. -/

namespace Sys2Proof.Machine

/-! ## `SampleAt` by quadrant and offset -/

section
variable (c : Config) {off : Nat} (h : off < 256)
include h

theorem sampleAt_offset_I : sampleAt c off = c.mid + readWave c (BitVec.ofNat 8 off) := by
  rw [sampleAt_quadrantI c (by omega), Nat.mod_eq_of_lt h]

theorem sampleAt_offset_II : sampleAt c (256 + off) = c.mid + readWave c (BitVec.ofNat 8 (255 - off)) := by
  rw [sampleAt_quadrantII c (by omega) (by omega), Nat.add_mod_left, Nat.mod_eq_of_lt h]

theorem sampleAt_offset_III : sampleAt c (512 + off) = c.mid - readWave c (BitVec.ofNat 8 off) := by
  have hoff : (512 + off) % 256 = off := by omega
  rw [sampleAt_quadrantIII c (by omega) (by omega), hoff]

theorem sampleAt_offset_IV : sampleAt c (768 + off) = c.mid - readWave c (BitVec.ofNat 8 (255 - off)) := by
  have hoff : (768 + off) % 256 = off := by omega
  rw [sampleAt_quadrantIV c (by omega), hoff]

end

/-- The index is taken modulo 1024. -/
theorem sampleAt_add_period (c : Config) (x : Nat) : sampleAt c (x + 1024) = sampleAt c x := by
  have hindex : BitVec.ofNat 10 (x + 1024) = BitVec.ofNat 10 x := by
    apply BitVec.eq_of_toNat_eq
    simp only [BitVec.toNat_ofNat]
    omega
  simp only [sampleAt, hindex]

/-! ## The two levels at the ends of a quadrant -/

theorem mid_add_last (c : Config) : (c.mid + readWave c 255#8).toNat = c.outMax := by
  rw [mid_add_wave, readWave_last]
  rfl

theorem mid_sub_last (c : Config) : (c.mid - readWave c 255#8).toNat = c.outMin := by
  rw [mid_sub_wave, readWave_last]
  rfl

/-- Mirrored about the midpoint, two samples make up twice the midpoint. -/
theorem mid_sub_add_mid_add (c : Config) (i : Byte) :
    (c.mid - readWave c i).toNat + (c.mid + readWave c i).toNat = 2 * c.mid.toNat := by
  have hsub := mid_sub_wave_add_wave c i
  have hadd := mid_add_wave c i
  omega

/-- Settles O24: each clause is two offsets that read the same element of the quarter table. -/
theorem waveformIsSymmetric : Obligations.WaveformIsSymmetric := by
  intro c
  have h0 : (0 : Nat) < 256 := by decide
  have h255 : 255 < 256 := by decide
  refine ⟨?_, ?_, ?_, ?_, ?_, ?_, ?_, ?_, ?mirrors, sampleAt_add_period c⟩
  · rw [sampleAt_offset_I c h0, readWave_zero, BitVec.add_zero]
  · rw [sampleAt_offset_II c h255, readWave_zero, BitVec.add_zero]
  · rw [sampleAt_offset_III c h0, readWave_zero, BitVec.sub_zero]
  · rw [sampleAt_offset_IV c h255, readWave_zero, BitVec.sub_zero]
  · rw [sampleAt_offset_I c h255, mid_add_last]
  · rw [sampleAt_offset_II c h0, mid_add_last]
  · rw [sampleAt_offset_III c h255, mid_sub_last]
  · rw [sampleAt_offset_IV c h0, mid_sub_last]
  case mirrors =>
    intro off hoff
    have hback : 255 - off < 256 := by omega
    refine ⟨?II, ?III, ?IV⟩
    case II => rw [sampleAt_offset_II c hoff, sampleAt_offset_I c hback]
    case III => rw [sampleAt_offset_III c hoff, sampleAt_offset_I c hoff, mid_sub_add_mid_add]
    case IV => rw [sampleAt_offset_IV c hoff, sampleAt_offset_I c hback, mid_sub_add_mid_add]

/-! ## Monotone quarters (40_waveform_rom.md R104) -/

/-- The quarter table rises with its index (40_waveform_rom.md R101 (b)). -/
theorem readWave_ofNat_mono (c : Config) {i j : Nat} (hij : i ≤ j) (hj : j < 256) :
    (readWave c (BitVec.ofNat 8 i)).toNat ≤ (readWave c (BitVec.ofNat 8 j)).toNat := by
  apply readWave_mono
  rw [BitVec.toNat_ofNat, BitVec.toNat_ofNat]
  omega

section
variable (c : Config) {a b : Nat} (hab : a ≤ b) (hb : b < 256)
include hab hb

theorem sampleAt_mono_I : (sampleAt c a).toNat ≤ (sampleAt c b).toNat := by
  have hwave := readWave_ofNat_mono c hab hb
  rw [sampleAt_offset_I c (by omega), sampleAt_offset_I c hb, mid_add_wave, mid_add_wave]
  omega

theorem sampleAt_anti_II : (sampleAt c (256 + b)).toNat ≤ (sampleAt c (256 + a)).toNat := by
  have hwave := readWave_ofNat_mono c (show 255 - b ≤ 255 - a by omega) (by omega)
  rw [sampleAt_offset_II c (by omega), sampleAt_offset_II c (by omega), mid_add_wave, mid_add_wave]
  omega

theorem sampleAt_anti_III : (sampleAt c (512 + b)).toNat ≤ (sampleAt c (512 + a)).toNat := by
  have hwave := readWave_ofNat_mono c hab hb
  rw [sampleAt_offset_III c (by omega), sampleAt_offset_III c (by omega), mid_sub_wave, mid_sub_wave]
  omega

theorem sampleAt_mono_IV : (sampleAt c (768 + a)).toNat ≤ (sampleAt c (768 + b)).toNat := by
  have hwave := readWave_ofNat_mono c (show 255 - b ≤ 255 - a by omega) (by omega)
  rw [sampleAt_offset_IV c (by omega), sampleAt_offset_IV c (by omega), mid_sub_wave, mid_sub_wave]
  omega

end

/-- Settles O25: two indices of one quadrant are two offsets in it. -/
theorem waveformIsMonotoneInEachQuadrant : Obligations.WaveformIsMonotoneInEachQuadrant := by
  intro c i j hij
  refine ⟨?rises, ?falls⟩
  case rises =>
    rintro (hI | ⟨hlo, hhi⟩)
    · exact sampleAt_mono_I c hij hI
    · obtain ⟨a, rfl⟩ := Nat.exists_eq_add_of_le hlo
      obtain ⟨b, rfl⟩ := Nat.exists_eq_add_of_le (hlo.trans hij)
      exact sampleAt_mono_IV c (by omega) (by omega)
  case falls =>
    rintro (⟨hlo, hhi⟩ | ⟨hlo, hhi⟩) <;>
      obtain ⟨a, rfl⟩ := Nat.exists_eq_add_of_le hlo <;>
      obtain ⟨b, rfl⟩ := Nat.exists_eq_add_of_le (hlo.trans hij)
    · exact sampleAt_anti_II c (by omega) (by omega)
    · exact sampleAt_anti_III c (by omega) (by omega)

/-! ## The output range (40_waveform_rom.md R102, R105) -/

theorem inOutputRange_mid (c : Config) : InOutputRange c c.mid := ⟨Nat.sub_le _ _, Nat.le_add_right _ _⟩

theorem inOutputRange_mid_add (c : Config) (i : Byte) : InOutputRange c (c.mid + readWave c i) := by
  have hpeak := readWave_le_peak c i
  rw [InOutputRange, mid_add_wave, Config.outMin, Config.outMax]
  omega

theorem inOutputRange_mid_sub (c : Config) (i : Byte) : InOutputRange c (c.mid - readWave c i) := by
  have hpeak := readWave_le_peak c i
  rw [InOutputRange, mid_sub_wave, Config.outMin, Config.outMax]
  omega

theorem inOutputRange_sampleAt (c : Config) (x : Nat) : InOutputRange c (sampleAt c x) := by
  rw [sampleAt_eq]
  split
  · exact inOutputRange_mid_sub c _
  · exact inOutputRange_mid_add c _

theorem inOutputRange_voiceSample (c : Config) (vc : Voice) : InOutputRange c (voiceSample c vc).2 := by
  rw [voiceSample]
  split
  · exact inOutputRange_mid c
  · exact inOutputRange_sampleAt c _

/-- Settles O26: each branch of `SampleAt` adds to or takes from `MID` at most the half amplitude, which it reaches at
the ends of quadrants I and III. -/
theorem samplesStayInTheOutputRange : Obligations.SamplesStayInTheOutputRange := by
  intro c
  obtain ⟨-, -, -, -, hmax, -, hmin, -, -, -⟩ := waveformIsSymmetric c
  exact ⟨inOutputRange_sampleAt c, ⟨255, hmax⟩, ⟨767, hmin⟩, inOutputRange_voiceSample c⟩

end Sys2Proof.Machine
end

section
/-! PROOFS. Repeated calls of `Advance` (42_oscillator.md R124, R125): the phase is one 24-bit accumulator. -/

namespace Sys2Proof.Machine

/-! ## The accumulator as a number -/

/-- A 16-bit word above a byte is their number in base 256. -/
theorem toNat_half_append_byte (hi : Half) (lo : Byte) : (hi ++ lo).toNat = hi.toNat * 256 + lo.toNat := by
  rw [BitVec.toNat_append, ← Nat.shiftLeft_add_eq_or_of_lt lo.isLt, Nat.shiftLeft_eq]

theorem accumulator_toNat (vc : Voice) :
    (accumulator vc).toNat = vc.phaseIndex.toNat * 256 + vc.phaseFraction.toNat :=
  toNat_half_append_byte _ _

theorem increment_toNat (c : Config) (p : BitVec 7) :
    (increment c p).toNat = (readFint c p).toNat * 256 + (readFfrac c p).toNat :=
  toNat_half_append_byte _ _

/-- One call: the carry of the fractions is the carry of the 24-bit sum. -/
theorem accumulator_advance (c : Config) (vc : Voice) (p : BitVec 7) :
    accumulator (advance c vc p) = accumulator vc + increment c p := by
  apply BitVec.eq_of_toNat_eq
  rw [BitVec.toNat_add, accumulator_toNat, accumulator_toNat, increment_toNat, advance_phaseIndex,
    advance_phaseFraction, BitVec.toNat_ofNat, BitVec.toNat_ofNat]
  omega

theorem sameSequencer_advance (c : Config) (vc : Voice) (p : BitVec 7) : SameSequencer (advance c vc p) vc :=
  ⟨rfl, rfl, rfl, rfl, rfl, rfl⟩

theorem SameSequencer.trans {a b d : Voice} (hab : SameSequencer a b) (hbd : SameSequencer b d) :
    SameSequencer a d := by
  obtain ⟨h1, h2, h3, h4, h5, h6⟩ := hab
  obtain ⟨k1, k2, k3, k4, k5, k6⟩ := hbd
  exact ⟨h1.trans k1, h2.trans k2, h3.trans k3, h4.trans k4, h5.trans k5, h6.trans k6⟩

/-- Settles O21, by induction on the number of calls. -/
theorem advancesAddToThe24BitAccumulator : Obligations.AdvancesAddToThe24BitAccumulator := by
  intro c p n vc
  induction n with
  | zero => simp [SameSequencer]
  | succ n ih =>
    obtain ⟨hacc, hseq⟩ := ih
    rw [Function.iterate_succ_apply']
    refine ⟨?_, (sameSequencer_advance c _ p).trans hseq⟩
    rw [accumulator_advance, hacc, BitVec.ofNat_add, BitVec.add_mul, BitVec.one_mul, BitVec.add_assoc]

/-- Settles O22: 256 times 257 is 257 in the upper sixteen bits. -/
theorem carryPropertyOf256Advances : Obligations.CarryPropertyOf256Advances := by
  intro c p vc hint hfrac
  obtain ⟨hacc, -⟩ := advancesAddToThe24BitAccumulator c p 256 vc
  have hinc : BitVec.ofNat 24 256 * increment c p = BitVec.ofNat 24 (257 * 256) := by
    rw [increment, hint, hfrac]
    rfl
  have hnat := congrArg BitVec.toNat hacc
  rw [hinc, BitVec.toNat_add, accumulator_toNat, accumulator_toNat] at hnat
  constructor <;> bv_omega

end Sys2Proof.Machine
end

section
/-! PROOFS. The mean of the active voices (44_mixer.md R152 to R154). -/

namespace Sys2Proof.Machine

section
variable (c : Config) {b : Block}

/-- Bounds on every active voice's amplitude bound their sum. -/
theorem amplitudeSum_bounds {lo hi : Nat}
    (h : ∀ v, b.active v → lo ≤ (voiceSample c (b.voice v)).2.toNat ∧ (voiceSample c (b.voice v)).2.toNat ≤ hi) :
    b.trackCount.val * lo ≤ amplitudeSum c b ∧ amplitudeSum c b ≤ b.trackCount.val * hi := by
  have hmem : ∀ a ∈ (activeVoices b.trackCount).map (fun v => (voiceSample c (b.voice v)).2.toNat),
      lo ≤ a ∧ a ≤ hi := by
    rintro _ ha
    obtain ⟨v, hv, rfl⟩ := List.mem_map.1 ha
    exact h v ((mem_activeVoices _ _).1 hv)
  have hlow := List.card_nsmul_le_sum _ lo (fun a ha => (hmem a ha).1)
  have hhigh := List.sum_le_card_nsmul _ hi (fun a ha => (hmem a ha).2)
  simpa [amplitudeSum] using And.intro hlow hhigh

/-- A mean lies between the bounds of what it is the mean of (44_mixer.md R154). -/
theorem mix_snd_bounds {lo hi : Nat} (hsession : b.trackCount ≠ 0)
    (h : ∀ v, b.active v → lo ≤ (voiceSample c (b.voice v)).2.toNat ∧ (voiceSample c (b.voice v)).2.toNat ≤ hi) :
    lo ≤ (mix c b).2.toNat ∧ (mix c b).2.toNat ≤ hi := by
  obtain ⟨hlow, hhigh⟩ := amplitudeSum_bounds c h
  have hpos : 0 < b.trackCount.val := Fin.pos_iff_ne_zero.2 hsession
  rw [mix_snd_toNat c hsession]
  exact ⟨(Nat.le_div_iff_mul_le hpos).2 (Nat.mul_comm lo _ ▸ hlow), Nat.div_le_of_le_mul hhigh⟩

theorem inOutputRange_mix (b : Block) : InOutputRange c (mix c b).2 := by
  by_cases hsession : b.trackCount = 0
  · rw [mix_of_trackCount_zero c hsession]
    exact inOutputRange_mid c
  · exact mix_snd_bounds c hsession (fun v _ => inOutputRange_voiceSample c (b.voice v))

theorem not_active_of_no_session {b : Block} (h : b.trackCount = 0) (v : VoiceId) : ¬ b.active v := by
  rw [Block.active, h]
  exact Nat.not_lt_zero _

/-- One voice's amplitude, taken out of the sum of the active voices'. -/
theorem amplitudeSum_eq_add_erase {v : VoiceId} (hv : b.active v) :
    amplitudeSum c b = (voiceSample c (b.voice v)).2.toNat +
      (((activeVoices b.trackCount).erase v).map (fun w => (voiceSample c (b.voice w)).2.toNat)).sum :=
  (List.sum_map_erase _ ((mem_activeVoices _ _).2 hv)).symm

/-- Every active voice but one in pause adds `MID` to the sum (44_mixer.md R152). -/
theorem amplitudeSum_of_rest_pause {v : VoiceId} (hv : b.active v)
    (hpause : ∀ w, b.active w → w ≠ v → isPause (b.voice w).currentPitch = true) :
    amplitudeSum c b = (voiceSample c (b.voice v)).2.toNat + (b.trackCount.val - 1) * c.mid.toNat := by
  have hmid : ∀ w ∈ (activeVoices b.trackCount).erase v, (voiceSample c (b.voice w)).2.toNat = c.mid.toNat := by
    intro w hw
    obtain ⟨hne, hmem⟩ := (activeVoices_nodup _).mem_erase_iff.1 hw
    rw [voiceSample_pause c (hpause w ((mem_activeVoices _ _).1 hmem) hne)]
  rw [amplitudeSum_eq_add_erase c hv, List.map_congr_left hmid, List.map_const', List.sum_replicate, smul_eq_mul,
    List.length_erase_of_mem ((mem_activeVoices _ _).2 hv), length_activeVoices]

end

/-- Settles O29, from the bounds on the sum that the mean divides. -/
theorem mixLiesBetweenItsAmplitudes : Obligations.MixLiesBetweenItsAmplitudes := by
  intro c b
  exact ⟨fun lo hi hsession h => mix_snd_bounds c hsession h, inOutputRange_mix c b⟩

/-- Settles O30, from the sum in which every other voice has the amplitude `MID`. -/
theorem restingVoicesCountInTheDivisor : Obligations.RestingVoicesCountInTheDivisor := by
  intro c b v hv hpause
  have hsession : b.trackCount ≠ 0 := fun hz => not_active_of_no_session hz v hv
  rw [mix_snd_toNat c hsession, amplitudeSum_of_rest_pause c hv hpause]

end Sys2Proof.Machine
end

section
/-! PROOFS. What a move does to one voice: said once for a tick, for an `INVOKE` and for any event. -/

namespace Sys2Proof.Machine

/-! ## A tick (43_track_sequencer.md R130, R134, R135, R137) -/

/-- What a tick can do, by the sequencer state it finds. -/
theorem tickVoice_cases {v : VoiceId} {vc vc' : Voice} (h : tickVoice v vc = .ok vc') :
    (vc.seqState = .priming ∧ vc' = { vc with currentPitch := pause, seqState := .finished }) ∨
    (vc.seqState = .priming ∧
      ∃ d, vc' = { vc with currentPitch := pause, remainingTicks := d, seqState := .playing }) ∨
    (vc.seqState = .playing ∧ vc' = waitFor (vc.remainingTicks - 1) vc) ∨
    (vc.seqState = .playing ∧ consume v (waitFor 0 vc) = .ok vc') ∨
    (vc.seqState = .finished ∧ vc' = vc) := by
  cases hstate : vc.seqState with
  | priming =>
    rw [tickVoice_priming v hstate] at h
    by_cases hempty : vc.eventCount = 0
    · rw [primingTick_empty v hempty] at h
      cases h
      exact .inl ⟨rfl, rfl⟩
    · unfold primingTick at h
      simp only [hempty, if_false] at h
      split at h
      · cases h
      · rename_i d _
        cases h
        exact .inr (.inl ⟨rfl, d, rfl⟩)
  | playing =>
    rw [tickVoice_playing v hstate, playingTick_eq] at h
    split at h
    · exact .inr (.inr (.inr (.inl ⟨rfl, h⟩)))
    · cases h
      exact .inr (.inr (.inl ⟨rfl, rfl⟩))
  | finished =>
    rw [tickVoice_finished v hstate] at h
    cases h
    exact .inr (.inr (.inr (.inr ⟨rfl, rfl⟩)))

/-! ## Voices that differ in their phases at most -/

section
variable {a b : Voice} (h : SameSequencer a b)
include h

theorem SameSequencer.readEvent_eq (i : Half) : readEvent a i = readEvent b i := by
  obtain ⟨-, -, -, -, hcount, htrack⟩ := h
  exact readEvent_congr htrack hcount i

theorem SameSequencer.trackSpaceWf_eq : trackSpaceWf a = trackSpaceWf b := by
  obtain ⟨-, -, -, -, hcount, htrack⟩ := h
  exact trackSpaceWf_congr htrack hcount

theorem SameSequencer.voiceConsistent (hb : VoiceConsistent b) : VoiceConsistent a := by
  have hwf := h.trackSpaceWf_eq
  obtain ⟨hstate, hpitch, -, hcursor, hcount, htrack⟩ := h
  simpa only [VoiceConsistent, hwf, hstate, hpitch, hcursor, hcount, htrack] using hb

theorem SameSequencer.holdsPitchBeforeCursor (hb : HoldsPitchBeforeCursor b) : HoldsPitchBeforeCursor a := by
  have hread : readTrkp a (b.eventCursor - 1) = readTrkp b (b.eventCursor - 1) :=
    congrArg (Option.map Event.pitch) (h.readEvent_eq _)
  obtain ⟨hstate, hpitch, -, hcursor, -, -⟩ := h
  simpa only [HoldsPitchBeforeCursor, hread, hstate, hpitch, hcursor] using hb

end

theorem SameSequencer.refl (a : Voice) : SameSequencer a a := ⟨rfl, rfl, rfl, rfl, rfl, rfl⟩

/-! ## One voice in an `INVOKE`, and in any event -/

/-- What an `INVOKE` does to a voice: it clears every voice with the session, or the session goes on as it was and the
voice is ticked, if it is active, or keeps its sequencer. -/
theorem InvokeMove.voice_cases {c : Config} {b b' : Block} (h : InvokeMove c b b') (v : VoiceId) :
    (b'.trackCount = 0 ∧ b'.voice v = Voice.cleared) ∨
    (b'.trackCount = b.trackCount ∧
      (SameSequencer (b'.voice v) (b.voice v) ∨ (b.active v ∧ tickVoice v (b.voice v) = .ok (b'.voice v)))) := by
  cases h with
  | disabled => exact .inr ⟨rfl, .inl (.refl _)⟩
  | sample => exact .inr ⟨sampleStep_trackCount c b, .inl (sampleStep_sequencer c b v)⟩
  | tickLasts _ _ _ _ vs hticked hother _ =>
    refine .inr ⟨rfl, ?_⟩
    by_cases hv : b.active v
    · exact .inr ⟨hv, hticked v hv⟩
    · have hsame : vs.get v = b.voice v := hother v hv
      exact .inl (by rw [Block.voice, hsame]; exact .refl _)
  | tickEnds => exact .inl ⟨rfl, stopClear_voice _ v⟩
  | count => exact .inr ⟨rfl, .inl (.refl _)⟩

section
variable (c : Config) (chan : Byte) (b : Block)

@[simp] theorem initBlock_trackCount : (initBlock c chan b).trackCount = 0 := by
  by_cases h : chan ∈ c.validChannels
  · rw [initBlock_valid c b h]; rfl
  · rw [initBlock_invalid c b h]; rfl

@[simp] theorem initBlock_bufferedSample : (initBlock c chan b).bufferedSample = c.mid := by
  by_cases h : chan ∈ c.validChannels
  · rw [initBlock_valid c b h]; rfl
  · rw [initBlock_invalid c b h]; rfl

@[simp] theorem initBlock_voice (v : VoiceId) : (initBlock c chan b).voice v = Voice.cleared := by
  by_cases h : chan ∈ c.validChannels
  · rw [initBlock_valid c b h]; exact atReset_voice c v
  · rw [initBlock_invalid c b h]; exact atReset_voice c v

end

/-- What an event does to a voice: it starts anew, bound to a track if it is then active and cleared otherwise, or the
session goes on as it was and the voice is ticked, if it is active, or keeps its sequencer. -/
theorem BlockMove.voice_cases {c : Config} {b b' : Block} (h : BlockMove c b b') (v : VoiceId) :
    (∃ t, b'.voice v = if b'.active v then boundVoice t else Voice.cleared) ∨
    (b'.trackCount = b.trackCount ∧
      (SameSequencer (b'.voice v) (b.voice v) ∨ (b.active v ∧ tickVoice v (b.voice v) = .ok (b'.voice v)))) := by
  have hcleared : b'.trackCount = 0 → b'.voice v = Voice.cleared →
      ∃ t, b'.voice v = if b'.active v then boundVoice t else Voice.cleared := by
    intro hzero hvoice
    refine ⟨Track.empty, ?_⟩
    rw [if_neg (not_active_of_no_session hzero v), hvoice]
  cases h with
  | keeps => exact .inr ⟨rfl, .inl (.refl _)⟩
  | reset => exact .inl (hcleared rfl (atReset_voice c v))
  | init chan => exact .inl (hcleared (initBlock_trackCount c chan b) (initBlock_voice c chan b v))
  | play _ tracks n _ spt => exact .inl ⟨_, startSession_voice c tracks n spt b v⟩
  | stop => exact .inl (hcleared rfl (stopClear_voice b v))
  | invoke hmove =>
    obtain ⟨hzero, hvoice⟩ | hlasts := hmove.voice_cases v
    · exact .inl (hcleared hzero hvoice)
    · exact .inr hlasts

end Sys2Proof.Machine
end

section
/-! PROOFS. The invariants of voices: the form of track memory (20_memory.md R61), and the pitch a voice holds
(43_track_sequencer.md R141). -/

namespace Sys2Proof.Machine

/-! ## The form of track memory -/

/-- Settles O53: a voice starts with a well-formed track space, and neither a tick nor a sample moves the binding. -/
theorem stepKeepsTheFormOfMemory : Obligations.StepKeepsTheFormOfMemory := by
  intro s t hwf hstep
  rw [memory_wf_iff] at hwf ⊢
  obtain ⟨-, hmove, -⟩ := step_move hstep
  intro v
  obtain ⟨tr, hstart⟩ | ⟨-, hsame | ⟨-, htick⟩⟩ := hmove.voice_cases v
  · rw [hstart]
    split <;> simp
  · rw [hsame.trackSpaceWf_eq]
    exact hwf v
  · obtain ⟨-, hcount, htrack, -⟩ := tickVoice_spec htick
    rw [trackSpaceWf_congr htrack hcount]
    exact hwf v

/-! ## The pitch a voice holds -/

section
variable {vc : Voice}

theorem holdsPitch_priming (h : vc.seqState = .priming) :
    HoldsPitchBeforeCursor vc ↔ vc.eventCursor = 0 ∧ vc.currentPitch = pause := by
  simp only [HoldsPitchBeforeCursor, h]

theorem holdsPitch_playing (h : vc.seqState = .playing) :
    HoldsPitchBeforeCursor vc ↔
      if vc.eventCursor = 0 then vc.currentPitch = pause
      else readTrkp vc (vc.eventCursor - 1) = some vc.currentPitch := by
  simp only [HoldsPitchBeforeCursor, h]

theorem holdsPitch_finished (h : vc.seqState = .finished) :
    HoldsPitchBeforeCursor vc ↔ vc.currentPitch = pause := by
  simp only [HoldsPitchBeforeCursor, h]

end

/-- `Consume` ends with 0xFF, or behind an event whose pitch it leaves (43_track_sequencer.md R136, R139). -/
theorem consume_holdsPitch {v : VoiceId} {vc vc' : Voice} (hplaying : vc.seqState = .playing)
    (h : consume v vc = .ok vc') : HoldsPitchBeforeCursor vc' := by
  obtain ⟨-, hcount, htrack, hlt, -, ⟨hfin, hpause, -⟩ | ⟨hstate, -, -, hpitch, -⟩⟩ := consumeLoop_spec h
  · exact (holdsPitch_finished hfin).2 hpause
  · have hne : vc'.eventCursor ≠ 0 := fun hz => by rw [hz] at hlt; exact Nat.not_lt_zero _ hlt
    have hread : readTrkp vc' (vc'.eventCursor - 1) = readTrkp vc (vc'.eventCursor - 1) :=
      congrArg (Option.map Event.pitch) (readEvent_congr htrack hcount _)
    rw [holdsPitch_playing (hstate.trans hplaying), if_neg hne, hread, hpitch]

/-- A tick keeps the pitch held in step with the cursor. -/
theorem tickVoice_holdsPitch {v : VoiceId} {vc vc' : Voice} (hh : HoldsPitchBeforeCursor vc)
    (h : tickVoice v vc = .ok vc') : HoldsPitchBeforeCursor vc' := by
  obtain ⟨-, rfl⟩ | ⟨hprim, d, rfl⟩ | ⟨hplay, rfl⟩ | ⟨hplay, hconsume⟩ | ⟨-, rfl⟩ := tickVoice_cases h
  · exact (holdsPitch_finished rfl).2 rfl
  · obtain ⟨hcursor, -⟩ := (holdsPitch_priming hprim).1 hh
    exact (holdsPitch_playing rfl).2 (by rw [if_pos hcursor])
  · exact (holdsPitch_playing hplay).2 ((holdsPitch_playing hplay).1 hh)
  · exact consume_holdsPitch (vc := waitFor 0 vc) hplay hconsume
  · exact hh

/-- Settles O56: a bound voice holds 0xFF at the start of its track, and ticks and samples keep what a voice holds. -/
theorem stepKeepsTheHeldPitches : Obligations.StepKeepsTheHeldPitches := by
  intro s t hholds hstep v hv
  obtain ⟨-, hmove, -⟩ := step_move hstep
  obtain ⟨tr, hstart⟩ | ⟨hcount, hsame | ⟨hactive, htick⟩⟩ := hmove.voice_cases v
  · rw [hstart, if_pos hv]
    exact (holdsPitch_priming rfl).2 ⟨rfl, rfl⟩
  · refine hsame.holdsPitchBeforeCursor (hholds v ?_)
    rwa [Block.active, ← hcount]
  · exact tickVoice_holdsPitch (hholds v hactive) htick

end Sys2Proof.Machine
end

section
/-! PROOFS. The invariants of the outputs and of the sample counter (44_mixer.md R153, 45_scheduler.md R166). -/

namespace Sys2Proof.Machine

/-- A move leaves the pending sample, or makes it `MID` or a mix. -/
theorem BlockMove.bufferedSample_cases {c : Config} {b b' : Block} (h : BlockMove c b b') :
    b'.bufferedSample = b.bufferedSample ∨ b'.bufferedSample = c.mid ∨ b'.bufferedSample = (mix c b).2 := by
  cases h with
  | keeps => exact .inl rfl
  | reset => exact .inr (.inl rfl)
  | init chan => exact .inr (.inl (initBlock_bufferedSample c chan b))
  | play => exact .inl rfl
  | stop => exact .inl rfl
  | invoke hmove =>
    cases hmove with
    | sample => exact .inr (.inr (sampleStep_bufferedSample c b))
    | disabled => exact .inl rfl
    | tickLasts => exact .inl rfl
    | tickEnds => exact .inl rfl
    | count => exact .inl rfl

/-- Settles O54: `MID` and every mix are in the range, and the byte written is the pending sample. -/
theorem stepKeepsOutputsInRange : Obligations.StepKeepsOutputsInRange := by
  rintro s t ⟨hpending, hwritten⟩ hstep
  obtain ⟨hconfig, hmove, hout⟩ := step_move hstep
  rw [OutputsInRange, hconfig]
  refine ⟨?pending, ?written⟩
  case pending =>
    obtain h | h | h := hmove.bufferedSample_cases <;> rw [h]
    · exact hpending
    · exact inOutputRange_mid _
    · exact inOutputRange_mix _ _
  case written =>
    obtain hout | ⟨o, hout, hdata⟩ := hout
    · rwa [hout]
    · rw [hout, List.forall_mem_append, List.forall_mem_singleton, hdata]
      exact ⟨hwritten, hpending⟩

/-! ## The sample counter -/

/-- `SampleCounterInRange` of the registers alone. -/
abbrev BlockCounterInRange (c : Config) (b : Block) : Prop :=
  b.trackCount ≠ 0 → 1 ≤ b.samplesPerTick.toNat →
    b.sampleCounter.toNat ≤ b.samplesPerTick.toNat ∧ (b.sampleCounter = 0 → b.subCycleCounter = c.subcycles)

theorem sampleCounterInRange_iff (s : State) : SampleCounterInRange s ↔ BlockCounterInRange s.config s.block :=
  Iff.rfl

/-- A sub-cycle counter of 1 is not at `SUBCYCLES`, of which there are at least two (00_scope.md R6). -/
theorem subcycles_ne_one (c : Config) : c.subcycles ≠ 1 := by
  have htwo := two_le_subcycles c
  intro h
  rw [h] at htwo
  exact absurd htwo (by decide)

/-- No sample step finds the sample counter 0. -/
theorem sampleCounter_ne_zero {c : Config} {b : Block} (h : BlockCounterInRange c b) (hsession : b.trackCount ≠ 0)
    (hspt : 1 ≤ b.samplesPerTick.toNat) (hone : b.subCycleCounter = 1) : b.sampleCounter ≠ 0 := by
  obtain ⟨-, hzero⟩ := h hsession hspt
  exact fun hz => subcycles_ne_one c ((hzero hz).symm.trans hone)

theorem InvokeMove.counterInRange {c : Config} {b b' : Block} (hmove : InvokeMove c b b')
    (h : BlockCounterInRange c b) : BlockCounterInRange c b' := by
  cases hmove with
  | disabled => exact h
  | sample _ hone =>
    intro hsession hspt
    rw [sampleStep_trackCount] at hsession
    rw [sampleStep_samplesPerTick] at hspt
    obtain ⟨hle, -⟩ := h hsession hspt
    have hne := sampleCounter_ne_zero h hsession hspt hone
    rw [sampleStep_samplesPerTick, sampleStep_sampleCounter, if_neg hsession, sampleStep_subCycleCounter]
    exact ⟨by bv_omega, fun _ => rfl⟩
  | tickLasts _ _ _ _ vs =>
    intro _ hspt
    refine ⟨le_rfl, fun hz => ?_⟩
    exact absurd (congrArg BitVec.toNat hz) (Nat.pos_iff_ne_zero.1 hspt)
  | tickEnds => exact fun hsession => absurd rfl hsession
  | count _ _ hno =>
    intro hsession hspt
    obtain ⟨hle, -⟩ := h hsession hspt
    exact ⟨hle, fun hz => absurd hz (hno.resolve_left hsession)⟩

theorem BlockMove.counterInRange {c : Config} {b b' : Block} (hmove : BlockMove c b b')
    (h : BlockCounterInRange c b) : BlockCounterInRange c b' := by
  cases hmove with
  | keeps => exact h
  | reset => exact fun hsession => absurd rfl hsession
  | init chan => exact fun hsession => absurd (initBlock_trackCount c chan b) hsession
  | play _ tracks n _ spt => exact fun _ _ => ⟨le_rfl, fun _ => rfl⟩
  | stop => exact fun hsession => absurd rfl hsession
  | invoke hmove => exact hmove.counterInRange h

/-- Settles O55: a sample step decrements a counter that is not 0 and reloads the sub-cycle counter, and a tick pass
reloads the sample counter. -/
theorem stepKeepsTheSampleCounterInRange : Obligations.StepKeepsTheSampleCounterInRange := by
  refine ⟨?keeps, fun s h => sampleCounter_ne_zero h⟩
  case keeps =>
    intro s t h hstep
    obtain ⟨hconfig, hmove, -⟩ := step_move hstep
    rw [sampleCounterInRange_iff, hconfig]
    exact hmove.counterInRange h

end Sys2Proof.Machine
end

section
/-! PROOFS. The invariants of 10_state.md R39, kept by every move, and what follows from them. -/

namespace Sys2Proof.Machine

/-- `Inv` of the registers alone. -/
abbrev BlockInv (c : Config) (b : Block) : Prop :=
  SubCycleInRange c b ∧ InactiveCleared b ∧ ActiveConsistent b ∧ DisabledHasNoSession b ∧ SessionHasUnfinished b ∧
  NoSessionCountersClear b ∧ ChannelValid c b

theorem inv_iff (s : State) : Inv s ↔ BlockInv s.config s.block := Iff.rfl

/-! ## The sub-cycle counter -/

theorem subcycles_inRange (c : Config) : 1 ≤ c.subcycles.toNat ∧ c.subcycles.toNat ≤ c.subcycles.toNat :=
  ⟨Nat.le_of_succ_le (two_le_subcycles c), le_rfl⟩

/-- Away from 1 the counter can be decremented. -/
theorem subCycle_pred_inRange {c : Config} {b : Block} (h : SubCycleInRange c b) (hne : b.subCycleCounter ≠ 1) :
    1 ≤ (b.subCycleCounter - 1).toNat ∧ (b.subCycleCounter - 1).toNat ≤ c.subcycles.toNat := by
  obtain ⟨hlo, hhi⟩ := h
  have hne' : b.subCycleCounter.toNat ≠ 1 := fun h => hne (BitVec.eq_of_toNat_eq h)
  bv_omega

/-! ## Registers without a session, and with a session just started -/

/-- Without a session the invariants say that voices and counters are cleared. -/
theorem blockInv_of_no_session {c : Config} {b : Block} (hsub : SubCycleInRange c b) (hchan : ChannelValid c b)
    (hzero : b.trackCount = 0) (hspt : b.samplesPerTick = 0) (hcounter : b.sampleCounter = 0)
    (hvoices : ∀ v, b.voice v = Voice.cleared) : BlockInv c b :=
  ⟨hsub, fun v _ => hvoices v, fun v hv => absurd hv (not_active_of_no_session hzero v), fun _ => hzero,
    fun hsession => absurd hzero hsession, fun _ => ⟨hspt, hcounter⟩, hchan⟩

theorem blockInv_stopClear {c : Config} {b : Block} (hsub : SubCycleInRange c b) (hchan : ChannelValid c b) :
    BlockInv c (stopClear b) :=
  blockInv_of_no_session hsub hchan rfl rfl rfl (stopClear_voice b)

theorem blockInv_atReset (c : Config) : BlockInv c (Block.atReset c) :=
  blockInv_of_no_session (subcycles_inRange c) (fun h => absurd h Bool.false_ne_true) rfl rfl rfl (atReset_voice c)

theorem blockInv_initBlock (c : Config) (chan : Byte) (b : Block) : BlockInv c (initBlock c chan b) := by
  by_cases hvalid : chan ∈ c.validChannels
  · rw [initBlock_valid c b hvalid]
    exact blockInv_of_no_session (subcycles_inRange c) (fun _ => hvalid) rfl rfl rfl (atReset_voice c)
  · rw [initBlock_invalid c b hvalid]
    exact blockInv_of_no_session (subcycles_inRange c) (fun h => absurd h Bool.false_ne_true) rfl rfl rfl
      (atReset_voice c)

/-- A voice as `PLAY` binds it (46_control_commands.md R173). -/
theorem voiceConsistent_boundVoice (t : Track) : VoiceConsistent (boundVoice t) := by
  refine ⟨rfl, trackSpaceWf_boundVoice t, Nat.zero_le _, fun h => ?_, fun _ => rfl, fun _ => rfl⟩
  exact absurd h (by simp)

theorem blockInv_startSession {c : Config} {b : Block} (henabled : b.enabled = true) (hchan : ChannelValid c b)
    (tracks : List Track) {n : Fin 5} (hn : n ≠ 0) (spt : Half) : BlockInv c (startSession c tracks n spt b) := by
  have hvoice := startSession_voice c tracks n spt b
  have hfirst : (0 : VoiceId).val < n.val := Fin.pos_iff_ne_zero.2 hn
  refine ⟨subcycles_inRange c, fun v hv => ?_, fun v hv => ?_, fun hdis => ?_, fun _ => ⟨0, hfirst, ?_⟩,
    fun hz => absurd hz hn, hchan⟩
  · exact (hvoice v).trans (if_neg hv)
  · rw [(hvoice v).trans (if_pos hv)]
    exact voiceConsistent_boundVoice _
  · exact absurd (henabled.symm.trans hdis) (by decide)
  · rw [hvoice, if_pos hfirst]
    simp

/-! ## The invariants of a session that goes on -/

/-- The voices of a session that goes on keep their part of the invariants. -/
theorem voices_of_lasting_session {b b' : Block} (hcleared : InactiveCleared b) (hconsistent : ActiveConsistent b)
    (hcount : b'.trackCount = b.trackCount) (hinactive : ∀ v, ¬ b.active v → b'.voice v = b.voice v)
    (hactive : ∀ v, b.active v →
      SameSequencer (b'.voice v) (b.voice v) ∨ tickVoice v (b.voice v) = .ok (b'.voice v)) :
    InactiveCleared b' ∧ ActiveConsistent b' := by
  refine ⟨fun v hv => ?_, fun v hv => ?_⟩ <;> rw [Block.active, hcount] at hv
  · rw [hinactive v hv, hcleared v hv]
  · obtain hsame | htick := hactive v hv
    · exact hsame.voiceConsistent (hconsistent v hv)
    · exact tickVoice_consistent (hconsistent v hv) htick

theorem blockInv_sampleStep {c : Config} {b : Block} (h : BlockInv c b) : BlockInv c (sampleStep c b) := by
  obtain ⟨hsub, hcleared, hconsistent, hdis, hunfinished, hclear, hchan⟩ := h
  obtain ⟨hcleared', hconsistent'⟩ := voices_of_lasting_session hcleared hconsistent (sampleStep_trackCount c b)
    (fun v hv => by rw [sampleStep_voice, if_neg hv]) (fun v _ => .inl (sampleStep_sequencer c b v))
  refine ⟨?_, hcleared', hconsistent', ?_, ?_, ?_, ?_⟩
  · rw [SubCycleInRange, sampleStep_subCycleCounter]
    exact subcycles_inRange c
  · rw [DisabledHasNoSession, sampleStep_enabled, sampleStep_trackCount]
    exact hdis
  · intro hsession
    rw [sampleStep_trackCount] at hsession
    obtain ⟨v, hv, hne⟩ := hunfinished hsession
    obtain ⟨hstate, -⟩ := sampleStep_sequencer c b v
    exact ⟨v, by rwa [Block.active, sampleStep_trackCount], by rwa [hstate]⟩
  · intro hzero
    rw [sampleStep_trackCount] at hzero
    rw [sampleStep_samplesPerTick, sampleStep_sampleCounter, if_pos hzero]
    exact hclear hzero
  · rw [ChannelValid, sampleStep_enabled, sampleStep_channel]
    exact hchan

theorem InvokeMove.blockInv {c : Config} {b b' : Block} (hmove : InvokeMove c b b') (h : BlockInv c b) :
    BlockInv c b' := by
  cases hmove with
  | disabled => exact h
  | sample => exact blockInv_sampleStep h
  | tickLasts _ hne hsession _ vs hticked hother hunfinished =>
    obtain ⟨hsub, hcleared, hconsistent, hdis, -, -, hchan⟩ := h
    obtain ⟨hcleared', hconsistent'⟩ := voices_of_lasting_session hcleared hconsistent
      (b' := { b with
        subCycleCounter := b.subCycleCounter - 1
        sampleCounter := b.samplesPerTick
        voices := vs }) rfl hother (fun v hv => .inr (hticked v hv))
    exact ⟨subCycle_pred_inRange hsub hne, hcleared', hconsistent', hdis, fun _ => hunfinished,
      fun hz => absurd hz hsession, hchan⟩
  | tickEnds _ hne =>
    obtain ⟨hsub, -, -, -, -, -, hchan⟩ := h
    exact blockInv_stopClear (b := { b with subCycleCounter := b.subCycleCounter - 1 })
      (subCycle_pred_inRange hsub hne) hchan
  | count _ hne =>
    obtain ⟨hsub, hrest⟩ := h
    exact ⟨subCycle_pred_inRange hsub hne, hrest⟩

theorem BlockMove.blockInv {c : Config} {b b' : Block} (hmove : BlockMove c b b') (h : BlockInv c b) :
    BlockInv c b' := by
  cases hmove with
  | keeps => exact h
  | reset => exact blockInv_atReset c
  | init chan => exact blockInv_initBlock c chan b
  | play henabled tracks n hn spt =>
    obtain ⟨-, -, -, -, -, -, hchan⟩ := h
    exact blockInv_startSession henabled hchan tracks hn spt
  | stop =>
    obtain ⟨hsub, -, -, -, -, -, hchan⟩ := h
    exact blockInv_stopClear hsub hchan
  | invoke hmove => exact hmove.blockInv h

/-- Settles O47: every move keeps the invariants of the registers. -/
theorem stepKeepsTheInvariants : Obligations.StepKeepsTheInvariants := by
  intro s t h hstep
  obtain ⟨hconfig, hmove, -⟩ := step_move hstep
  rw [inv_iff, hconfig]
  exact hmove.blockInv h

/-- Settles O48: the registers after `RESET` have no session, and `MID` pending. -/
theorem resetHasTheInvariants : Obligations.ResetHasTheInvariants := by
  refine ⟨blockInv_atReset _, ⟨inOutputRange_mid _, by simp [State.reset]⟩, fun h => absurd rfl h, fun v hv => ?_,
    memory_wf_reset⟩
  exact absurd hv (not_active_of_no_session rfl v)

/-! ## What follows from the invariants -/

/-- Under the invariants every active voice can be ticked. -/
theorem tickPass_completes_of_inv {s : State} (h : Inv s) :
    ∃ b, tickPass { s.block with subCycleCounter := s.block.subCycleCounter - 1 } = .ok b := by
  obtain ⟨-, -, hconsistent, -⟩ := h
  exact tickPass_completes (fun v hv => tickVoice_completes v (hconsistent v hv))

theorem exec_invoke_completes {s : State} (h : Inv s) : Completes (exec .invoke s) := by
  by_cases henabled : s.block.enabled = true
  · by_cases hone : s.block.subCycleCounter = 1
    · exact ⟨_, exec_invoke_sample henabled hone⟩
    · by_cases hno : s.block.trackCount = 0 ∨ s.block.sampleCounter ≠ 0
      · exact ⟨_, exec_invoke_count henabled hone hno⟩
      · push Not at hno
        obtain ⟨b, hpass⟩ := tickPass_completes_of_inv h
        exact ⟨_, exec_invoke_tickPass henabled hone hno.1 hno.2 hpass⟩
  · exact ⟨_, exec_invoke_disabled (by simpa using henabled)⟩

/-- Every instruction but `INVOKE` has a next state in every state. -/
theorem exec_completes_of_ne_invoke {i : Instr} (hi : i ≠ .invoke) (s : State) : Completes (exec i s) := by
  cases i with
  | invoke => exact absurd rfl hi
  | note v pn d => exact ⟨_, rfl⟩
  | rest v d => exact ⟨_, rfl⟩
  | rsvd v p d => exact ⟨_, rfl⟩
  | init chan => exact ⟨_, rfl⟩
  | play ts count spt => exact ⟨_, rfl⟩
  | stop => exact ⟨_, rfl⟩
  | isPlaying => exact ⟨_, rfl⟩
  | reset => exact ⟨_, rfl⟩

theorem exec_completes_of_inv (i : Instr) {s : State} (h : Inv s) : Completes (exec i s) := by
  by_cases hi : i = .invoke
  · rw [hi]
    exact exec_invoke_completes h
  · exact exec_completes_of_ne_invoke hi s

/-- Taking an event from the ports leaves every other field. -/
theorem fetch_instr {s s' : State} {i : Instr} (h : fetch s = .instr i s') : ∃ rest, s' = { s with input := rest } := by
  unfold fetch at h
  repeat' split at h
  all_goals cases h
  all_goals exact ⟨_, rfl⟩

/-- Settles O49: the event is run from the same registers, whatever is presented. -/
theorem stepNeverStopsUnderTheInvariants : Obligations.StepNeverStopsUnderTheInvariants := by
  intro s h
  rw [step]
  split
  · exact ⟨_, rfl⟩
  · rename_i i s' hfetch
    obtain ⟨rest, rfl⟩ := fetch_instr hfetch
    exact exec_completes_of_inv (s := { s with input := rest }) i h

/-- `INVOKE` is refused in no branch. -/
theorem exec_invoke_not_refused (s : State) (r : Refusal) : exec .invoke s ≠ .refused r := by
  simp only [exec, execInvoke]
  repeat' split
  all_goals simp

/-- Settles O50: every other instruction completes. -/
theorem onlyInvokeCanFault : Obligations.OnlyInvokeCanFault := by
  intro i s
  by_cases hi : i = .invoke
  · rw [hi]
    exact ⟨exec_invoke_not_refused s, fun _ _ => rfl⟩
  · obtain ⟨t, ht⟩ := exec_completes_of_ne_invoke hi s
    rw [ht]
    exact ⟨fun r => nofun, fun f => nofun⟩

/-- Settles O51: both say that some voice of a session is still to finish. -/
theorem isPlayingEqualsSessionActive : Obligations.IsPlayingEqualsSessionActive := by
  intro s h
  rw [Bool.eq_iff_iff, isPlaying_iff_trackCount_ne_zero h, Block.sessionActive, bne_iff_ne]

/-- Without a session the invariants leave `StopClear` nothing to clear (46_control_commands.md R174). -/
theorem stopClear_eq_self {c : Config} {b : Block} (h : BlockInv c b) (hzero : b.trackCount = 0) : stopClear b = b := by
  obtain ⟨-, hcleared, -, -, -, hclear, -⟩ := h
  obtain ⟨hspt, hcounter⟩ := hclear hzero
  have hvoices : b.voices = VoiceFile.cleared :=
    VoiceFile.eq_of_get (fun v => (hcleared v (not_active_of_no_session hzero v)).trans (VoiceFile.get_cleared v).symm)
  obtain ⟨en, ch, n, spt, sub, counter, pending, vs⟩ := b
  simp only at hzero hspt hcounter hvoices
  rw [hzero, hspt, hcounter, hvoices]
  rfl

/-- Settles O42: the registers are already those that `StopClear` leaves. -/
theorem stopWithoutSessionChangesNothing : Obligations.StopWithoutSessionChangesNothing := by
  intro s h hzero
  rw [exec_stop, stopClear_eq_self h hzero]

end Sys2Proof.Machine
end

section
/-! PROOFS. `Consume` along a track (43_track_sequencer.md R136, R140): reads of a bound voice, what follows a load, and
the chain of zero delays. -/

namespace Sys2Proof.Machine

/-! ## Reads of a voice bound to a track (20_memory.md R61) -/

/-- The voice plays the track, all of it (46_control_commands.md R173). -/
abbrev BoundTo (t : Track) (vc : Voice) : Prop := vc.track = some t ∧ vc.eventCount = trackLength t

section
variable {t : Track} {vc : Voice} (hbound : BoundTo t vc)
include hbound

theorem readEvent_bound (i : Half) : readEvent vc i = t.events[i.toNat]? := by
  obtain ⟨htrack, hcount⟩ := hbound
  simp only [readEvent, htrack, hcount, toNat_trackLength]
  by_cases hi : i.toNat < t.events.length
  · rw [if_pos hi]
  · rw [if_neg hi, List.getElem?_eq_none (by omega)]

theorem readTrkd_bound {i : Half} {e : Event} (he : t.events[i.toNat]? = some e) : readTrkd vc i = some e.delay := by
  rw [readTrkd, readEvent_bound hbound, he, Option.map_some]

theorem cursor_eq_count_iff : vc.eventCursor = vc.eventCount ↔ vc.eventCursor.toNat = t.events.length := by
  obtain ⟨-, hcount⟩ := hbound
  rw [hcount, ← toNat_trackLength, BitVec.toNat_inj]

end

theorem delayOf_eq {t : Track} {i : Nat} {e : Event} (he : t.events[i]? = some e) : delayOf t i = e.delay.toNat := by
  rw [delayOf, he, Option.map_some, Option.getD_some]

/-- A list has an element at every index below its length. -/
theorem exists_event {t : Track} {i : Nat} (h : i < t.events.length) : ∃ e, t.events[i]? = some e :=
  ⟨_, List.getElem?_eq_getElem h⟩

/-! ## What follows a load (43_track_sequencer.md R136) -/

section
variable {v : VoiceId} {vc : Voice}

theorem afterLoad_end (h : vc.eventCursor = vc.eventCount) : afterLoad v vc = .ok (finishVoice vc) :=
  if_pos h

theorem afterLoad_wait {d : Half} (hne : vc.eventCursor ≠ vc.eventCount) (hd : readTrkd vc vc.eventCursor = some d)
    (hd0 : d ≠ 0) : afterLoad v vc = .ok (waitFor d vc) := by
  rw [afterLoad, if_neg hne, hd]
  exact if_pos hd0

theorem afterLoad_again (hne : vc.eventCursor ≠ vc.eventCount) (hd : readTrkd vc vc.eventCursor = some 0) :
    afterLoad v vc = consume v (waitFor 0 vc) := by
  rw [afterLoad, if_neg hne, hd]
  exact if_neg (fun h => h rfl)

end

/-- The cursor of a voice of a track is moved on without a wrap. -/
theorem toNat_cursor_succ_of_lt {t : Track} {i : Half} (h : i.toNat < t.events.length) :
    (i + 1).toNat = i.toNat + 1 :=
  toNat_cursor_succ (n := trackLength t) (by rwa [toNat_trackLength])

/-! ## The chain of zero delays (43_track_sequencer.md R140) -/

/-- The voice with the event `k` behind its cursor loaded, and those between them, which leave nothing to wait for. -/
def loadChain (p : Byte) (k : Nat) (vc : Voice) : Voice :=
  { vc with
    currentPitch := p
    eventCursor := BitVec.ofNat 16 (vc.eventCursor.toNat + k + 1)
    remainingTicks := if k = 0 then vc.remainingTicks else 0 }

/-- `Consume` runs through `k` events of delay 0 behind the first, and then does what follows the load of the last. -/
theorem consume_chain {v : VoiceId} {t : Track} {k : Nat} {e : Event} :
    ∀ {vc : Voice}, BoundTo t vc → t.events[vc.eventCursor.toNat + k]? = some e →
      (∀ j, vc.eventCursor.toNat < j → j ≤ vc.eventCursor.toNat + k → delayOf t j = 0) →
      consume v vc = afterLoad v (loadChain e.pitch k vc) := by
  induction k with
  | zero =>
    intro vc hbound he _
    have hcursor : BitVec.ofNat 16 (vc.eventCursor.toNat + 0 + 1) = vc.eventCursor + 1 := by bv_omega
    rw [consume_eq_afterLoad ((readEvent_bound hbound _).trans he), loadChain, hcursor]
    rfl
  | succ k ih =>
    intro vc hbound he hzero
    have hlt : vc.eventCursor.toNat + (k + 1) < t.events.length := (List.getElem?_eq_some_iff.1 he).1
    have hsucc := toNat_cursor_succ_of_lt (t := t) (i := vc.eventCursor) (by omega)
    obtain ⟨e0, he0⟩ := exists_event (t := t) (i := vc.eventCursor.toNat) (by omega)
    obtain ⟨e1, he1⟩ := exists_event (t := t) (i := (vc.eventCursor + 1).toNat) (by omega)
    have hdelay : e1.delay = 0 :=
      BitVec.eq_of_toNat_eq ((delayOf_eq he1).symm.trans (hzero _ (by omega) (by omega)))
    have hload : BoundTo t (loadPitch e0.pitch vc) := hbound
    have hne : (loadPitch e0.pitch vc).eventCursor ≠ (loadPitch e0.pitch vc).eventCount := fun h => by
      have hend : (vc.eventCursor + 1).toNat = t.events.length := (cursor_eq_count_iff hload).1 h
      omega
    have hread : readTrkd (loadPitch e0.pitch vc) (loadPitch e0.pitch vc).eventCursor = some 0 :=
      hdelay ▸ readTrkd_bound hload he1
    have hnext : vc.eventCursor.toNat + (k + 1) = (vc.eventCursor + 1).toNat + k := by omega
    rw [consume_eq_afterLoad ((readEvent_bound hbound _).trans he0), afterLoad_again hne hread,
      ih (vc := waitFor 0 (loadPitch e0.pitch vc)) hbound (hnext ▸ he) (fun j hlo hhi => ?_)]
    · simp [loadChain, waitFor, loadPitch, hnext]
    · simp only [waitFor_eventCursor, loadPitch_eventCursor] at hlo hhi
      exact hzero j (by omega) (by omega)

/-- Settles O18: behind the chain stands the end of the track, or an event with a delay to wait for. -/
theorem consumeLoadsTheZeroDelayChain : Obligations.ConsumeLoadsTheZeroDelayChain := by
  intro v vc t k htrack hcount hlt hzero
  obtain ⟨e, he⟩ := exists_event hlt
  have hbound : BoundTo t (loadChain e.pitch k vc) := ⟨htrack, hcount⟩
  have hcursor : (loadChain e.pitch k vc).eventCursor.toNat = vc.eventCursor.toNat + k + 1 := by
    have hfits := t.fits
    rw [loadChain, BitVec.toNat_ofNat]
    omega
  have hchain : consume v vc = afterLoad v (loadChain e.pitch k vc) := consume_chain ⟨htrack, hcount⟩ he hzero
  refine ⟨?ends, ?waits⟩
  case ends =>
    intro hend
    have hat : (loadChain e.pitch k vc).eventCursor = vc.eventCount :=
      (cursor_eq_count_iff hbound).2 (hcursor.trans hend)
    rw [hchain, afterLoad_end hat, finishVoice, hat]
    rfl
  case waits =>
    intro e1 e' he1 he' hdelay
    cases he.symm.trans he1
    have hne : (loadChain e.pitch k vc).eventCursor ≠ (loadChain e.pitch k vc).eventCount := fun h => by
      have hend := (cursor_eq_count_iff hbound).1 h
      have hinside := (List.getElem?_eq_some_iff.1 he').1
      omega
    rw [hchain, afterLoad_wait hne (readTrkd_bound hbound (hcursor ▸ he')) hdelay]
    rfl

end Sys2Proof.Machine
end

section
/-! PROOFS. The tick passes of a bound track (43_track_sequencer.md R138, R141, R142): where a voice stands after `p`
ticks, by induction on `p`. -/

namespace Sys2Proof.Machine

/-! ## Runs of ticks -/

/-- One more tick at the end of a run. -/
theorem ticks_succ {v : VoiceId} {n : Nat} {a b d : Voice} (hrun : ticks v n a = .ok b)
    (htick : tickVoice v b = .ok d) : ticks v (n + 1) a = .ok d := by
  induction n generalizing a with
  | zero =>
    cases hrun
    simp only [ticks, htick]
  | succ n ih =>
    rw [ticks] at hrun ⊢
    cases hfirst : tickVoice v a with
    | error f => rw [hfirst] at hrun; cases hrun
    | ok a' =>
      rw [hfirst] at hrun
      exact ih hrun

/-! ## Where a voice stands in the passes of its track -/

/-- Where a voice of a track stands after tick pass `p` (43_track_sequencer.md R138): it waits for the event at its
cursor, whose pass is still to come, with the event before it loaded; or it is past the last event, which is loaded. -/
inductive SequencerAt (t : Track) (p : Nat) (vc : Voice) : Prop where
  | waits (hstate : vc.seqState = .playing) (hinside : vc.eventCursor.toNat < t.events.length)
      (hnext : loadPass t vc.eventCursor.toNat = p + max 1 vc.remainingTicks.toNat)
      (hlast : ∀ i, i < vc.eventCursor.toNat → loadPass t i ≤ p)
  | done (hstate : vc.seqState = .finished) (hend : vc.eventCursor.toNat = t.events.length)
      (hlast : ∀ i, i < t.events.length → loadPass t i ≤ p)

theorem loadPass_mono (t : Track) : Monotone (loadPass t) :=
  monotone_nat_of_le_succ (fun i => Nat.le_add_right (loadPass t i) (delayOf t (i + 1)))

/-- `Consume` in the pass of the event at the cursor loads it, and every event of the same pass behind it. -/
theorem consume_sequencerAt (v : VoiceId) {t : Track} {p left : Nat} :
    ∀ {vc : Voice}, BoundTo t vc → vc.seqState = .playing → vc.eventCursor.toNat + left + 1 = t.events.length →
      loadPass t vc.eventCursor.toNat = p →
      ∃ vc', consume v vc = .ok vc' ∧ BoundTo t vc' ∧ SequencerAt t p vc' := by
  induction left with
  | zero =>
    intro vc hbound hstate hleft hpass
    have hsucc := toNat_cursor_succ_of_lt (t := t) (i := vc.eventCursor) (by omega)
    obtain ⟨e, he⟩ := exists_event (t := t) (i := vc.eventCursor.toNat) (by omega)
    have hend : (loadPitch e.pitch vc).eventCursor.toNat = t.events.length := by
      rw [loadPitch_eventCursor]; omega
    refine ⟨finishVoice (loadPitch e.pitch vc), ?_, hbound, .done rfl hend (fun i hi => ?_)⟩
    · rw [consume_eq_afterLoad ((readEvent_bound hbound _).trans he)]
      exact afterLoad_end ((cursor_eq_count_iff (vc := loadPitch e.pitch vc) hbound).2 hend)
    · exact hpass ▸ loadPass_mono t (by omega)
  | succ left ih =>
    intro vc hbound hstate hleft hpass
    have hsucc := toNat_cursor_succ_of_lt (t := t) (i := vc.eventCursor) (by omega)
    obtain ⟨e, he⟩ := exists_event (t := t) (i := vc.eventCursor.toNat) (by omega)
    obtain ⟨e', he'⟩ := exists_event (t := t) (i := (vc.eventCursor + 1).toNat) (by omega)
    have hload : BoundTo t (loadPitch e.pitch vc) := hbound
    have hne : (loadPitch e.pitch vc).eventCursor ≠ (loadPitch e.pitch vc).eventCount := fun h => by
      have hend : (vc.eventCursor + 1).toNat = t.events.length := (cursor_eq_count_iff hload).1 h
      omega
    have hread := readTrkd_bound hload (i := (loadPitch e.pitch vc).eventCursor) he'
    have hnext : loadPass t (vc.eventCursor + 1).toNat = p + e'.delay.toNat := by
      rw [← delayOf_eq he', ← hpass, hsucc, loadPass]
    rw [consume_eq_afterLoad ((readEvent_bound hbound _).trans he)]
    by_cases hzero : e'.delay = 0
    · rw [hzero] at hread hnext
      rw [afterLoad_again hne hread]
      refine ih (vc := waitFor 0 (loadPitch e.pitch vc)) hbound hstate ?_ hnext
      rw [waitFor_eventCursor, loadPitch_eventCursor]
      omega
    · have hpos : e'.delay.toNat ≠ 0 := fun h => hzero (BitVec.eq_of_toNat_eq h)
      refine ⟨_, afterLoad_wait hne hread hzero, hbound, .waits hstate ?_ ?_ (fun i hi => ?_)⟩
      · rw [waitFor_eventCursor, loadPitch_eventCursor]
        omega
      · rw [waitFor_eventCursor, loadPitch_eventCursor, waitFor_remainingTicks, hnext]
        omega
      · rw [waitFor_eventCursor, loadPitch_eventCursor] at hi
        exact hpass ▸ loadPass_mono t (by omega)

/-- The first tick of a track with events: the voice waits for event 0, at least one tick (43_track_sequencer.md
R134, R135). -/
theorem first_tick_sequencerAt (v : VoiceId) {t : Track} (hne : t.events ≠ []) :
    ∃ vc, tickVoice v (boundVoice t) = .ok vc ∧ BoundTo t vc ∧ SequencerAt t 1 vc := by
  have hbound : BoundTo t (boundVoice t) := ⟨rfl, rfl⟩
  have hlen : 0 < t.events.length := List.length_pos_iff.2 hne
  obtain ⟨e, he⟩ := exists_event hlen
  have hcount : (boundVoice t).eventCount ≠ 0 := fun h => by
    have hzero := congrArg BitVec.toNat h
    rw [boundVoice_eventCount, toNat_trackLength] at hzero
    exact absurd hzero (Nat.ne_of_gt hlen)
  refine ⟨_, (tickVoice_priming v rfl).trans (primingTick_waits v hcount (readTrkd_bound hbound he)), hbound,
    .waits rfl hlen ?_ (fun i hi => absurd hi (Nat.not_lt_zero i))⟩
  have hfirst : loadPass t 0 = max 2 (e.delay.toNat + 1) := by rw [← delayOf_eq he]; rfl
  have hgoal : max 2 (e.delay.toNat + 1) = 1 + max 1 e.delay.toNat := by omega
  exact hfirst.trans hgoal

/-- One tick takes a voice from its place after pass `p` to its place after pass `p + 1`. -/
theorem tick_sequencerAt (v : VoiceId) {t : Track} {p : Nat} {vc : Voice} (hbound : BoundTo t vc)
    (h : SequencerAt t p vc) : ∃ vc', tickVoice v vc = .ok vc' ∧ BoundTo t vc' ∧ SequencerAt t (p + 1) vc' := by
  cases h with
  | done hstate hend hlast =>
    exact ⟨vc, tickVoice_finished v hstate, hbound, .done hstate hend (fun i hi => (hlast i hi).trans (Nat.le_succ p))⟩
  | waits hstate hinside hnext hlast =>
    rw [tickVoice_playing v hstate]
    by_cases hdue : vc.remainingTicks.toNat ≤ 1
    · rw [playingTick_consumes v hdue]
      obtain ⟨left, hleft⟩ := Nat.exists_eq_add_of_lt hinside
      exact consume_sequencerAt v (vc := waitFor 0 vc) hbound hstate hleft.symm
        (by rw [waitFor_eventCursor, hnext]; omega)
    · rw [playingTick_decrements v (by omega)]
      refine ⟨_, rfl, hbound, .waits hstate hinside ?_ (fun i hi => (hlast i hi).trans (Nat.le_succ p))⟩
      have hpred : (vc.remainingTicks - 1).toNat = vc.remainingTicks.toNat - 1 := by bv_omega
      rw [waitFor_eventCursor, waitFor_remainingTicks, hnext, hpred]
      omega

/-- After `p` ticks from its binding a voice stands where the passes of its track say, and holds the pitch of the event
before its cursor. -/
theorem ticks_sequencerAt (v : VoiceId) {t : Track} (hne : t.events ≠ []) {p : Nat} (hp : 1 ≤ p) :
    ∃ vc, ticks v p (boundVoice t) = .ok vc ∧ BoundTo t vc ∧ SequencerAt t p vc ∧ HoldsPitchBeforeCursor vc := by
  induction p, hp using Nat.le_induction with
  | base =>
    obtain ⟨vc, htick, hbound, hat⟩ := first_tick_sequencerAt v hne
    have hholds : HoldsPitchBeforeCursor (boundVoice t) := (holdsPitch_priming rfl).2 ⟨rfl, rfl⟩
    exact ⟨vc, ticks_succ rfl htick, hbound, hat, tickVoice_holdsPitch hholds htick⟩
  | succ p _ ih =>
    obtain ⟨vc, hrun, hbound, hat, hholds⟩ := ih
    obtain ⟨vc', htick, hbound', hat'⟩ := tick_sequencerAt v hbound hat
    exact ⟨vc', ticks_succ hrun htick, hbound', hat', tickVoice_holdsPitch hholds htick⟩

/-- A voice bound to the empty track is Finished from its first tick on. -/
theorem ticks_empty_track (v : VoiceId) {t : Track} (hempty : t.events = []) {p : Nat} (hp : 1 ≤ p) :
    ticks v p (boundVoice t) = .ok { boundVoice t with currentPitch := pause, seqState := .finished } := by
  have hcount : (boundVoice t).eventCount = 0 := by
    apply BitVec.eq_of_toNat_eq
    rw [boundVoice_eventCount, toNat_trackLength, hempty]
    rfl
  induction p, hp using Nat.le_induction with
  | base => exact ticks_succ rfl ((tickVoice_priming v rfl).trans (primingTick_empty v hcount))
  | succ p _ ih => exact ticks_succ ih (tickVoice_finished v rfl)

/-! ## What the place says (43_track_sequencer.md R138, R141, R142) -/

section
variable {t : Track} {p : Nat} {vc : Voice} (h : SequencerAt t p vc)
include h

theorem SequencerAt.loaded_iff {i : Nat} (hi : i < t.events.length) : i < vc.eventCursor.toNat ↔ loadPass t i ≤ p := by
  cases h with
  | done _ hend hlast => exact ⟨fun _ => hlast i hi, fun _ => hend ▸ hi⟩
  | waits _ _ hnext hlast =>
    refine ⟨hlast i, fun hle => ?_⟩
    by_contra hge
    have hlate := loadPass_mono t (Nat.not_lt.1 hge)
    omega

theorem SequencerAt.finished_iff (hne : t.events ≠ []) :
    vc.seqState = .finished ↔ loadPass t (t.events.length - 1) ≤ p := by
  have hlen : 0 < t.events.length := List.length_pos_iff.2 hne
  rw [← h.loaded_iff (by omega)]
  cases h with
  | done hstate hend _ => exact ⟨fun _ => by omega, fun _ => hstate⟩
  | waits hstate hinside _ _ =>
    rw [hstate]
    exact ⟨fun hfin => absurd hfin (by decide), fun hpast => by omega⟩

end

/-- Between two loads a voice holds the pitch of the earlier event. -/
theorem pitch_between_loads {t : Track} {p i : Nat} {vc : Voice} {e : Event} (hbound : BoundTo t vc)
    (h : SequencerAt t p vc) (hholds : HoldsPitchBeforeCursor vc) (hi : i + 1 < t.events.length)
    (hloaded : loadPass t i ≤ p) (hlater : p < loadPass t (i + 1)) (he : t.events[i]? = some e) :
    vc.currentPitch = e.pitch := by
  have hcursor : vc.eventCursor.toNat = i + 1 := by
    have hpast := (h.loaded_iff (by omega)).2 hloaded
    have hnot := mt (h.loaded_iff hi).1 (Nat.not_le.2 hlater)
    omega
  cases h with
  | done _ hend _ => omega
  | waits hstate _ _ _ =>
    have hne : vc.eventCursor ≠ 0 := fun hz => by rw [hz] at hcursor; exact absurd hcursor.symm (Nat.succ_ne_zero i)
    have hpred : (vc.eventCursor - 1).toNat = i := by bv_omega
    rw [holdsPitch_playing hstate, if_neg hne, readTrkp, readEvent_bound hbound, hpred, he] at hholds
    exact (Option.some.inj hholds).symm

/-- Before the first load and after the last a voice holds 0xFF. -/
theorem pitch_outside_loads {t : Track} {p : Nat} {vc : Voice} (hne : t.events ≠ []) (h : SequencerAt t p vc)
    (hholds : HoldsPitchBeforeCursor vc) (hout : p < loadPass t 0 ∨ loadPass t (t.events.length - 1) ≤ p) :
    vc.currentPitch = pause := by
  have hfinished : vc.seqState = .finished → vc.currentPitch = pause := fun hfin => (holdsPitch_finished hfin).1 hholds
  obtain hearly | hlate := hout
  · have hnot := mt (h.loaded_iff (List.length_pos_iff.2 hne)).1 (Nat.not_le.2 hearly)
    have hzero : vc.eventCursor = 0 := BitVec.eq_of_toNat_eq (Nat.eq_zero_of_not_pos hnot)
    cases h with
    | done hstate _ _ => exact hfinished hstate
    | waits hstate _ _ _ =>
      rw [holdsPitch_playing hstate, if_pos hzero] at hholds
      exact hholds
  · exact hfinished ((h.finished_iff hne).2 hlate)

/-- Settles O19, from the place of the voice after `p` ticks. -/
theorem eventsAreLoadedInTheirTickPasses : Obligations.EventsAreLoadedInTheirTickPasses := by
  intro v t p hp
  refine ⟨?empty, ?events⟩
  case empty => exact fun hempty => ⟨_, ticks_empty_track v hempty hp, rfl, rfl⟩
  case events =>
    intro hne
    obtain ⟨vc, hrun, hbound, hat, hholds⟩ := ticks_sequencerAt v hne hp
    exact ⟨vc, hrun, fun i hi => hat.loaded_iff hi, hat.finished_iff hne,
      fun i e hi hloaded hlater he => pitch_between_loads hbound hat hholds hi hloaded hlater he,
      pitch_outside_loads hne hat hholds⟩

end Sys2Proof.Machine
end

section
/-! PROOFS. `INVOKE` from any state: its frame (45_scheduler.md R160), the cursors it moves (10_state.md R28), and the
independence of the voices (10_state.md R22). -/

namespace Sys2Proof.Machine

/-! ## The frame of a move -/

section
variable {c : Config} {b b' : Block}

theorem InvokeMove.control (h : InvokeMove c b b') :
    b'.enabled = b.enabled ∧ b'.channel = b.channel ∧ (b'.trackCount = b.trackCount ∨ b'.trackCount = 0) := by
  cases h with
  | sample => exact ⟨sampleStep_enabled c b, sampleStep_channel c b, .inl (sampleStep_trackCount c b)⟩
  | tickEnds => exact ⟨rfl, rfl, .inr rfl⟩
  | disabled => exact ⟨rfl, rfl, .inl rfl⟩
  | tickLasts => exact ⟨rfl, rfl, .inl rfl⟩
  | count => exact ⟨rfl, rfl, .inl rfl⟩

/-- With a count of 1 an `INVOKE` is a sample step, if it is anything. -/
theorem InvokeMove.sequencer_of_one (h : InvokeMove c b b') (hone : b.subCycleCounter = 1) (v : VoiceId) :
    SameSequencer (b'.voice v) (b.voice v) := by
  cases h with
  | disabled => exact .refl _
  | sample => exact sampleStep_sequencer c b v
  | tickLasts _ hne => exact absurd hone hne
  | tickEnds _ hne => exact absurd hone hne
  | count _ hne => exact absurd hone hne

theorem InvokeMove.bufferedSample_of_ne_one (h : InvokeMove c b b') (hne : b.subCycleCounter ≠ 1) :
    b'.bufferedSample = b.bufferedSample := by
  cases h with
  | sample _ hone => exact absurd hone hne
  | disabled => rfl
  | tickLasts => rfl
  | tickEnds => rfl
  | count => rfl

section
variable (h : InvokeMove c b b') (hlasts : b'.trackCount = b.trackCount) (hsession : b.trackCount ≠ 0)
include h hlasts hsession

theorem InvokeMove.samplesPerTick_of_lasts : b'.samplesPerTick = b.samplesPerTick := by
  cases h with
  | sample => exact sampleStep_samplesPerTick c b
  | tickEnds => exact absurd hlasts.symm hsession
  | disabled => rfl
  | tickLasts => rfl
  | count => rfl

/-- In a session that goes on a voice is ticked, if it is active, or keeps its sequencer. -/
theorem InvokeMove.voice_of_lasts (v : VoiceId) :
    SameSequencer (b'.voice v) (b.voice v) ∨ (b.active v ∧ tickVoice v (b.voice v) = .ok (b'.voice v)) := by
  obtain ⟨hzero, -⟩ | ⟨-, hvoice⟩ := h.voice_cases v
  · exact absurd (hlasts.symm.trans hzero) hsession
  · exact hvoice

theorem InvokeMove.binding_of_lasts (v : VoiceId) :
    (b'.voice v).eventCount = (b.voice v).eventCount ∧ (b'.voice v).track = (b.voice v).track := by
  obtain ⟨-, -, -, -, hcount, htrack⟩ | ⟨-, htick⟩ := h.voice_of_lasts hlasts hsession v
  · exact ⟨hcount, htrack⟩
  · obtain ⟨-, hcount, htrack, -⟩ := tickVoice_spec htick
    exact ⟨hcount, htrack⟩

/-- Only a sample step advances an oscillator (42_oscillator.md R123). -/
theorem InvokeMove.phase_of_lasts (hne : b.subCycleCounter ≠ 1) (v : VoiceId) :
    SamePhase (b'.voice v) (b.voice v) := by
  cases h with
  | sample _ hone => exact absurd hone hne
  | tickEnds => exact absurd hlasts.symm hsession
  | disabled => exact ⟨rfl, rfl⟩
  | count => exact ⟨rfl, rfl⟩
  | tickLasts _ _ _ _ vs hticked hother _ =>
    by_cases hv : b.active v
    · exact (tickVoice_spec (hticked v hv)).1
    · have hsame : vs.get v = b.voice v := hother v hv
      rw [Block.voice, hsame]
      exact ⟨rfl, rfl⟩

end
end

/-- Settles O36, from the move that the `INVOKE` makes. -/
theorem invokeFrame : Obligations.InvokeFrame := by
  intro s t h
  obtain ⟨hconfig, hinput, hresults, hinvocations, -⟩ := exec_invoke_frame h
  have hmove := exec_invoke_move h
  obtain ⟨henabled, hchannel, hcount⟩ := hmove.control
  refine ⟨hconfig, hinput, hresults, hinvocations, henabled, hchannel, hcount, hmove.sequencer_of_one,
    hmove.bufferedSample_of_ne_one, fun hlasts hsession => ?_⟩
  have hbinding := hmove.binding_of_lasts hlasts hsession
  refine ⟨hmove.samplesPerTick_of_lasts hlasts hsession, hmove.phase_of_lasts hlasts hsession, hbinding, fun v k => ?_⟩
  obtain ⟨heventCount, htrack⟩ := hbinding v
  have hread := readEvent_congr htrack heventCount k
  exact ⟨congrArg (Option.map Event.pitch) hread, congrArg (Option.map Event.delay) hread⟩

/-! ## Cursors (10_state.md R28) -/

/-- Under the invariants no cursor is past its event count. -/
theorem cursor_le_count {c : Config} {b : Block} (h : BlockInv c b) (v : VoiceId) :
    (b.voice v).eventCursor.toNat ≤ (b.voice v).eventCount.toNat := by
  obtain ⟨-, hcleared, hconsistent, -⟩ := h
  by_cases hv : b.active v
  · obtain ⟨-, -, hle, -⟩ := hconsistent v hv
    exact hle
  · rw [hcleared v hv]
    exact le_rfl

/-- Settles O57: a tick moves the cursor on, a sample step leaves it, and the invariants bound it afterwards. -/
theorem cursorsOnlyAdvance : Obligations.CursorsOnlyAdvance := by
  intro s t hinv h hsession v
  have hmove := exec_invoke_move h
  refine ⟨?forward, cursor_le_count (hmove.blockInv hinv) v, fun hone => ?still⟩
  case forward =>
    obtain ⟨hzero, -⟩ | ⟨-, ⟨-, -, -, hcursor, -, -⟩ | ⟨-, htick⟩⟩ := hmove.voice_cases v
    · exact absurd hzero hsession
    · rw [hcursor]
    · exact (tickVoice_spec htick).2.2.2
  case still =>
    obtain ⟨-, -, -, hcursor, -, -⟩ := hmove.sequencer_of_one hone v
    exact hcursor

/-! ## Voices do not interact (10_state.md R22, 43_track_sequencer.md R130) -/

/-- What an `INVOKE` that does not end the session makes of voice `v`, from the scheduler registers and the voice
alone. -/
def voiceAfterInvoke (c : Config) (enabled : Bool) (n : Fin 5) (sub : Byte) (counter : Half) (v : VoiceId)
    (vc : Voice) : Except Fault Voice :=
  if enabled = true ∧ v.val < n.val then
    if sub = 1 then .ok (voiceSample c vc).1
    else if counter = 0 then tickVoice v vc
    else .ok vc
  else .ok vc

/-- Every `INVOKE` that does not end the session makes of a voice what its registers and the scheduler's say. -/
theorem InvokeMove.voice_eq {c : Config} {b b' : Block} (h : InvokeMove c b b')
    (hlasts : b'.trackCount = b.trackCount) (v : VoiceId) :
    voiceAfterInvoke c b.enabled b.trackCount b.subCycleCounter b.sampleCounter v (b.voice v) = .ok (b'.voice v) := by
  rw [voiceAfterInvoke]
  cases h with
  | disabled henabled => rw [if_neg (by simp [henabled])]
  | sample henabled hone =>
    rw [sampleStep_voice]
    by_cases hv : b.active v
    · rw [if_pos ⟨henabled, hv⟩, if_pos hone, if_pos hv]
    · rw [if_neg (fun h => hv h.2), if_neg hv]
  | tickLasts henabled hne _ hdue vs hticked hother _ =>
    by_cases hv : b.active v
    · rw [if_pos ⟨henabled, hv⟩, if_neg hne, if_pos hdue]
      exact hticked v hv
    · rw [if_neg (fun h => hv h.2)]
      exact congrArg Except.ok (hother v hv).symm
  | tickEnds _ _ hsession => exact absurd hlasts.symm hsession
  | count henabled hne hno =>
    by_cases hv : b.active v
    · have hcounter : b.sampleCounter ≠ 0 := hno.resolve_left (fun hz => not_active_of_no_session hz v hv)
      rw [if_pos ⟨henabled, hv⟩, if_neg hne, if_neg hcounter]
      rfl
    · rw [if_neg (fun h => hv h.2)]
      rfl

/-- An `INVOKE` that ends the session clears every voice. -/
theorem InvokeMove.voice_of_ends {c : Config} {b b' : Block} (h : InvokeMove c b b')
    (hends : b'.trackCount ≠ b.trackCount) (v : VoiceId) : b'.voice v = Voice.cleared := by
  obtain ⟨-, hcleared⟩ | ⟨hlasts, -⟩ := h.voice_cases v
  · exact hcleared
  · exact absurd hlasts hends

/-- Settles O58: the voice is the one function of what the engines agree on, or cleared in both. -/
theorem voicesDoNotInteract : Obligations.VoicesDoNotInteract := by
  intro s1 s2 t1 t2 v hconfig henabled hcount hsub hcounter hvoice h1 h2 hboth
  have hmove1 := exec_invoke_move h1
  have hmove2 := exec_invoke_move h2
  by_cases hlasts : t1.block.trackCount = s1.block.trackCount
  · have heq1 := hmove1.voice_eq hlasts v
    have heq2 := hmove2.voice_eq (hboth.symm.trans (hlasts.trans hcount)) v
    rw [hconfig, henabled, hcount, hsub, hcounter, hvoice, heq2] at heq1
    exact (Except.ok.inj heq1).symm
  · rw [hmove1.voice_of_ends hlasts v, hmove2.voice_of_ends (by rwa [← hboth, ← hcount]) v]

end Sys2Proof.Machine
end

section
/-! PROOFS. The modes of the engine (46_control_commands.md R176). -/

namespace Sys2Proof.Machine

section
variable (b : Block)

theorem mode_disabled_iff : b.mode = .disabled ↔ b.enabled = false := by
  unfold Block.mode
  cases b.enabled <;> by_cases h : b.trackCount = 0 <;> simp [h]

theorem mode_idle_iff : b.mode = .idle ↔ b.enabled = true ∧ b.trackCount = 0 := by
  unfold Block.mode
  cases b.enabled <;> by_cases h : b.trackCount = 0 <;> simp [h]

theorem mode_playing_iff : b.mode = .playing ↔ b.enabled = true ∧ b.trackCount ≠ 0 := by
  unfold Block.mode
  cases b.enabled <;> by_cases h : b.trackCount = 0 <;> simp [h]

end

/-- Outside Playing there is no session: a disabled engine has none (10_state.md R39 (f)). -/
theorem no_session_of_mode_ne_playing {c : Config} {b : Block} (h : BlockInv c b) (hmode : b.mode ≠ .playing) :
    b.trackCount = 0 := by
  obtain ⟨-, -, -, hdis, -⟩ := h
  cases henabled : b.enabled with
  | false => exact hdis henabled
  | true => exact not_not.1 (fun hsession => hmode ((mode_playing_iff b).2 ⟨henabled, hsession⟩))

/-- A session ends in a tick pass that finds every active voice Finished, and in no other `INVOKE`. -/
theorem InvokeMove.session_ends_iff {c : Config} {b b' : Block} (h : InvokeMove c b b')
    (henabled : b.enabled = true) (hsession : b.trackCount ≠ 0) :
    b'.trackCount = 0 ↔ b.subCycleCounter ≠ 1 ∧ b.sampleCounter = 0 ∧
      ∀ v, b.active v → ∃ vc, tickVoice v (b.voice v) = .ok vc ∧ vc.seqState = .finished := by
  cases h with
  | disabled hdis => exact absurd (henabled.symm.trans hdis) (by decide)
  | sample _ hone =>
    rw [sampleStep_trackCount]
    exact ⟨fun hzero => absurd hzero hsession, fun hpass => absurd hone hpass.1⟩
  | tickLasts _ _ _ _ vs hticked _ hunfinished =>
    refine ⟨fun hzero => absurd hzero hsession, fun ⟨_, _, hall⟩ => ?_⟩
    obtain ⟨v, hv, hne⟩ := hunfinished
    obtain ⟨vc, htick, hfin⟩ := hall v hv
    have hvc : vs.get v = vc := Except.ok.inj ((hticked v hv).symm.trans htick)
    exact absurd (hvc ▸ hfin) hne
  | tickEnds _ hne _ hdue hfinished => exact ⟨fun _ => ⟨hne, hdue, hfinished⟩, fun _ => rfl⟩
  | count _ _ hno =>
    exact ⟨fun hzero => absurd hzero hsession, fun hpass => absurd hpass.2.1 (hno.resolve_left hsession)⟩

/-- The rows of `INVOKE` in the mode table. -/
theorem invoke_modes {s t : State} (h : exec .invoke s = .next t) :
    (s.block.mode = .disabled → t.block = s.block ∧ t.out = s.out) ∧
    (s.block.mode = .idle → t.block.mode = .idle) ∧
    (s.block.mode = .playing →
      (t.block.mode = .playing ∨ t.block.mode = .idle) ∧
      (t.block.mode = .idle ↔
        s.block.subCycleCounter ≠ 1 ∧ s.block.sampleCounter = 0 ∧
        ∀ v, s.block.active v → ∃ vc, tickVoice v (s.block.voice v) = .ok vc ∧ vc.seqState = .finished)) := by
  have hmove := exec_invoke_move h
  obtain ⟨henabled, -, hcount⟩ := hmove.control
  rw [mode_disabled_iff, mode_idle_iff, mode_playing_iff, mode_playing_iff, mode_idle_iff, henabled]
  refine ⟨fun hdis => ?_, fun ⟨hen, hzero⟩ => ⟨hen, ?_⟩, fun ⟨hen, hsession⟩ => ⟨?_, ?_⟩⟩
  · cases (exec_invoke_disabled hdis).symm.trans h
    exact ⟨rfl, rfl⟩
  · exact hcount.elim (fun hsame => hsame.trans hzero) id
  · obtain hsame | hzero := hcount
    · exact .inl ⟨hen, hsame ▸ hsession⟩
    · exact .inr ⟨hen, hzero⟩
  · rw [← hmove.session_ends_iff hen hsession]
    exact ⟨fun hidle => hidle.2, fun hzero => ⟨hen, hzero⟩⟩

/-- Settles O46, row by row of the table. -/
theorem modesChangeAsTheTableSays : Obligations.ModesChangeAsTheTableSays := by
  intro s t hinv
  refine ⟨?reset, ?init, ?play, ?stop, invoke_modes, ?isPlaying⟩
  case reset =>
    intro h
    cases h
    rfl
  case init =>
    intro chan h
    cases h
    by_cases hvalid : chan ∈ s.config.validChannels
    · rw [if_pos hvalid, initBlock_valid _ _ hvalid]
      rfl
    · rw [if_neg hvalid, initBlock_invalid _ _ hvalid]
      rfl
  case play =>
    intro tracks count spt h
    cases h
    refine ⟨fun ⟨hmode, hlo, hhi⟩ => ?_, fun hrejected => ?_⟩
    · have henabled : s.block.enabled = true := by simpa [mode_disabled_iff] using hmode
      rw [playBlock_accepted _ tracks spt henabled hlo hhi, mode_playing_iff]
      exact ⟨henabled, fun hzero => absurd (congrArg Fin.val hzero) (Nat.ne_of_gt hlo)⟩
    · obtain hdis | hcount := hrejected
      · rw [playBlock_disabled _ tracks spt count ((mode_disabled_iff _).1 hdis)]
      · rw [playBlock_countRejected _ tracks spt hcount]
  case stop =>
    intro h
    cases h
    refine ⟨fun hmode => ?_, fun hmode => ?_⟩
    · exact (mode_idle_iff _).2 ⟨((mode_playing_iff _).1 hmode).1, rfl⟩
    · rw [stopClear_eq_self hinv (no_session_of_mode_ne_playing hinv hmode)]
  case isPlaying =>
    intro h
    cases h
    have hbit : s.block.isPlaying = decide (s.block.mode = .playing) := by
      rw [Bool.eq_iff_iff, isPlaying_iff_trackCount_ne_zero hinv, decide_eq_true_eq, mode_playing_iff]
      obtain ⟨-, -, -, hdis, -⟩ := hinv
      refine ⟨fun hsession => ⟨?_, hsession⟩, fun h => h.2⟩
      exact Bool.eq_true_of_not_eq_false (fun hfalse => hsession (hdis hfalse))
    exact ⟨rfl, by rw [hbit]⟩

end Sys2Proof.Machine
end

section
/-! PROOFS. Runs of strobes without a session (45_scheduler.md R167, R168): a disabled engine, and an idle one. -/

namespace Sys2Proof.Machine

/-- One more strobe at the end of a run. -/
theorem invokes_succ {n : Nat} {s t u : State} (hrun : invokes n s = .next t) (hlast : exec .invoke t = .next u) :
    invokes (n + 1) s = .next u := by
  induction n generalizing s with
  | zero =>
    cases hrun
    simp only [invokes, hlast]
  | succ n ih =>
    rw [invokes] at hrun ⊢
    cases hfirst : exec .invoke s with
    | next s' =>
      rw [hfirst] at hrun
      exact ih hrun
    | fault f => rw [hfirst] at hrun; cases hrun
    | refused r => rw [hfirst] at hrun; cases hrun

/-- A disabled engine only counts strobes. -/
theorem invokes_disabled {s : State} (h : s.block.enabled = false) (n : Nat) :
    invokes n s = .next { s with invocations := s.invocations + n } := by
  induction n with
  | zero => rfl
  | succ n ih =>
    exact invokes_succ ih (exec_invoke_disabled (s := { s with invocations := s.invocations + n }) h)

/-- Settles O45: the machine after reset is disabled and has counted no strobe. -/
theorem resetStateIsQuiet : Obligations.ResetStateIsQuiet := by
  refine ⟨exec_reset _, rfl, fun n => ?_⟩
  rw [invokes_disabled rfl]
  simp [State.reset]

/-! ## The position in the sample period -/

/-- Adding one either goes on within a block of `m` or begins the next one. -/
theorem succ_div_mod_cases {m : Nat} (hm : 0 < m) (n : Nat) :
    (n % m + 1 = m ∧ (n + 1) % m = 0 ∧ (n + 1) / m = n / m + 1) ∨
    (n % m + 1 < m ∧ (n + 1) % m = n % m + 1 ∧ (n + 1) / m = n / m) := by
  have hsplit := Nat.div_add_mod n m
  obtain hlast | hwithin := Nat.eq_or_lt_of_le (Nat.succ_le_of_lt (Nat.mod_lt n hm))
  · have hnext : n + 1 = 0 + m * (n / m + 1) := by rw [Nat.mul_add]; omega
    refine .inl ⟨hlast, ?_, ?_⟩
    · rw [hnext, Nat.add_mul_mod_self_left, Nat.zero_mod]
    · rw [hnext, Nat.add_mul_div_left _ _ hm, Nat.zero_div, Nat.zero_add]
  · have hnext : n + 1 = (n % m + 1) + m * (n / m) := by omega
    refine .inr ⟨hwithin, ?_, ?_⟩
    · rw [hnext, Nat.add_mul_mod_self_left, Nat.mod_eq_of_lt hwithin]
    · rw [hnext, Nat.add_mul_div_left _ _ hm, Nat.div_eq_of_lt hwithin, Nat.zero_add]

/-! ## An idle engine (45_scheduler.md R168) -/

/-- Without a session the sample step makes `MID` the pending sample, and changes nothing else but the sub-cycle
counter. -/
theorem sampleStep_idle (c : Config) {b : Block} (h : b.trackCount = 0) :
    sampleStep c b = { b with subCycleCounter := c.subcycles, bufferedSample := c.mid } := by
  rw [sampleStep_eq, mix_of_trackCount_zero c h, if_pos h]

/-- The writes of an idle engine: the sample that was pending first, and `MID` ever after. -/
def PendingThenMid (pending mid : Byte) (ws : List OutWrite) : Prop :=
  (∀ o, ws.head? = some o → o.data = pending) ∧ ∀ o ∈ ws.tail, o.data = mid

/-- The sample pending behind such writes. -/
def pendingAfter (pending mid : Byte) (ws : List OutWrite) : Byte := if ws = [] then pending else mid

/-- Writing the sample that is pending goes on in the same way. -/
theorem PendingThenMid.append {pending mid : Byte} {ws : List OutWrite} (h : PendingThenMid pending mid ws)
    {o : OutWrite} (ho : o.data = pendingAfter pending mid ws) : PendingThenMid pending mid (ws ++ [o]) := by
  obtain ⟨hhead, htail⟩ := h
  cases ws with
  | nil => exact ⟨fun o' ho' => by cases ho'; exact ho, fun o' ho' => nomatch ho'⟩
  | cons w ws =>
    refine ⟨hhead, fun o' ho' => ?_⟩
    obtain hold | hnew := List.mem_append.1 ho'
    · exact htail o' hold
    · rw [List.mem_singleton.1 hnew]
      exact ho

/-- An idle engine after `n` strobes: the sub-cycle counter it has come to, and the writes it has made. -/
def idleAfter (s : State) (n : Nat) (sub : Byte) (ws : List OutWrite) : State :=
  { s with
    invocations := s.invocations + n
    out := s.out ++ ws
    block := { s.block with
      subCycleCounter := sub
      bufferedSample := pendingAfter s.block.bufferedSample s.config.mid ws } }

section
variable {s : State} (henabled : s.block.enabled = true) (hidle : s.block.trackCount = 0) (n : Nat)
  (ws : List OutWrite)
include henabled hidle

/-- The sample step of an idle engine writes the pending sample and leaves `MID`. -/
theorem exec_invoke_idleAfter_one : ∃ o : OutWrite,
    exec .invoke (idleAfter s n 1 ws) = .next (idleAfter s (n + 1) s.config.subcycles (ws ++ [o])) ∧
    o.data = pendingAfter s.block.bufferedSample s.config.mid ws := by
  refine ⟨⟨s.invocations + n + 1, pendingAfter s.block.bufferedSample s.config.mid ws, s.block.channel⟩, ?_, rfl⟩
  have hpending : ∀ o : OutWrite, pendingAfter s.block.bufferedSample s.config.mid (ws ++ [o]) = s.config.mid :=
    fun o => if_neg (by simp)
  rw [exec_invoke_sample (s := idleAfter s n 1 ws) henabled rfl,
    sampleStep_idle _ (b := (idleAfter s n 1 ws).block) hidle, idleAfter, idleAfter, hpending, List.append_assoc]
  rfl

theorem exec_invoke_idleAfter_ne_one {sub : Byte} (hne : sub ≠ 1) :
    exec .invoke (idleAfter s n sub ws) = .next (idleAfter s (n + 1) (sub - 1) ws) :=
  exec_invoke_count (s := idleAfter s n sub ws) henabled hne (.inl hidle)

end

/-- What `n` strobes make of an idle engine whose sub-cycle counter stands `a` strobes into its period: it stands
`(n + a) % S` into it, and `(n + a) / S` samples have been written. -/
theorem invokes_idle {s : State} (henabled : s.block.enabled = true) (hidle : s.block.trackCount = 0) {a : Nat}
    (hplace : s.block.subCycleCounter.toNat + a = s.config.subcycles.toNat) (hlt : a < s.config.subcycles.toNat)
    (n : Nat) : ∃ (sub : Byte) (ws : List OutWrite),
      invokes n s = .next (idleAfter s n sub ws) ∧
      sub.toNat + (n + a) % s.config.subcycles.toNat = s.config.subcycles.toNat ∧
      ws.length = (n + a) / s.config.subcycles.toNat ∧
      PendingThenMid s.block.bufferedSample s.config.mid ws := by
  induction n with
  | zero =>
    refine ⟨s.block.subCycleCounter, [], ?_, ?_, ?_, by simp [PendingThenMid]⟩
    · rw [idleAfter, List.append_nil]
      rfl
    · rw [Nat.zero_add, Nat.mod_eq_of_lt hlt, hplace]
    · rw [Nat.zero_add, Nat.div_eq_of_lt hlt]
      rfl
  | succ n ih =>
    obtain ⟨sub, ws, hrun, hsub, hlen, hws⟩ := ih
    rw [Nat.add_right_comm]
    obtain ⟨hmod, hmod', hdiv'⟩ | ⟨hmod, hmod', hdiv'⟩ := succ_div_mod_cases (Nat.zero_lt_of_lt hlt) (n + a)
    · have hone : sub = 1 := BitVec.eq_of_toNat_eq (show sub.toNat = 1 by omega)
      rw [hone] at hrun
      obtain ⟨o, hinvoke, ho⟩ := exec_invoke_idleAfter_one henabled hidle n ws
      refine ⟨_, _, invokes_succ hrun hinvoke, ?_, ?_, hws.append ho⟩
      · rw [hmod', Nat.add_zero]
      · rw [hdiv', List.length_append, hlen, List.length_singleton]
    · have hne : sub ≠ 1 := fun hone => by
        have hone' : sub.toNat = 1 := congrArg BitVec.toNat hone
        omega
      refine ⟨_, _, invokes_succ hrun (exec_invoke_idleAfter_ne_one henabled hidle n ws hne), ?_, ?_, hws⟩
      · rw [hmod']
        bv_omega
      · rw [hdiv', hlen]

/-- Settles O38, from what the strobes leave. -/
theorem idleEngineWritesThePendingSampleThenSilence : Obligations.IdleEngineWritesThePendingSampleThenSilence := by
  rintro s n henabled hidle ⟨hlo, hhi⟩
  obtain ⟨a, ha⟩ := Nat.exists_eq_add_of_le hhi
  obtain ⟨sub, ws, hrun, -, hlen, hhead, htail⟩ := invokes_idle henabled hidle ha.symm (by omega) n
  have hplace : n + s.config.subcycles.toNat - s.block.subCycleCounter.toNat = n + a := by omega
  exact ⟨_, ws, hrun, rfl, by rw [hplace, hlen], hhead, htail, rfl⟩

end Sys2Proof.Machine
end

section
/-! PROOFS. A placed word (log 5): what the host's table words decode to, and the step that runs a placed one. -/

namespace Sys2Proof.Machine

/-! ## The host's table words (30_encoding.md R80, R81) -/

theorem littleEndian_three (w : Nat) : littleEndian 3 w = bytes24 (BitVec.ofNat 24 w) := by
  simp only [littleEndian, bytes24, List.cons.injEq, and_true]
  refine ⟨?_, ?_, ?_⟩ <;> apply BitVec.eq_of_toNat_eq <;>
    simp only [BitVec.extractLsb'_toNat, BitVec.toNat_ofNat, Nat.shiftRight_eq_div_pow] <;> omega

theorem littleEndian_four (w : Nat) : littleEndian 4 w = bytes32 (BitVec.ofNat 32 w) := by
  simp only [littleEndian, bytes32, List.cons.injEq, and_true]
  refine ⟨?_, ?_, ?_, ?_⟩ <;> apply BitVec.eq_of_toNat_eq <;>
    simp only [BitVec.extractLsb'_toNat, BitVec.toNat_ofNat, Nat.shiftRight_eq_div_pow] <;> omega

/-- The two low bits of a strobe's byte (log 10). -/
theorem strobeByte_low (w : Nat) : (BitVec.ofNat 8 w).extractLsb' 0 2 = BitVec.ofNat 2 w := by
  apply BitVec.eq_of_toNat_eq
  simp only [BitVec.extractLsb'_toNat, BitVec.toNat_ofNat, Nat.shiftRight_zero]
  omega

/-- A table word is an instruction exactly if its bytes decode to it. -/
theorem decodeTableWord_eq_some {nbits w k : Nat} {src : Source} {i : Instr}
    (hsrc : tableSource nbits = some (src, k)) :
    decodeTableWord nbits w = some i ↔ decode src (littleEndian k w) = .ok i := by
  rw [decodeTableWord, hsrc]
  dsimp only
  cases decode src (littleEndian k w) <;> simp

theorem decodeTableWord_command {w : Nat} {i : Instr} (h : decodeTableWord 32 w = some i) :
    decodeCW (Bindings.ofList []) (BitVec.ofNat 32 w) = i := by
  rw [decodeTableWord_eq_some (src := .command (Bindings.ofList [])) (k := 4) rfl, littleEndian_four,
    decode_bytes32] at h
  exact Except.ok.inj h

theorem decodeTableWord_strobe {w : Nat} {i : Instr} (h : decodeTableWord 8 w = some i) :
    decodeSV (BitVec.ofNat 2 w) = some i := by
  rw [decodeTableWord_eq_some (src := .strobe) (k := 1) rfl, littleEndian, littleEndian, decode_strobe_ok_iff,
    strobeByte_low] at h
  exact h

theorem decodeTableWord_event {w : Nat} {i : Instr} (h : decodeTableWord 24 w = some i) :
    decodeEvent 0 (eventOfWord (BitVec.ofNat 24 w)) = i := by
  rw [decodeTableWord_eq_some (src := .track 0) (k := 3) rfl, littleEndian_three, decode_bytes24] at h
  exact Except.ok.inj h

/-! ## A placed event (log 5) -/

section
variable (w : BitVec 24)

/-- The tick of the placed voice loads the event, and then waits one tick for the terminator. -/
theorem tickVoice_voiceAboutToLoad :
    tickVoice 0 (voiceAboutToLoad (eventTrack w)) =
      .ok (waitFor 1 (loadPitch (eventOfWord w).pitch (voiceAboutToLoad (eventTrack w)))) := by
  have hevent : readEvent (voiceAboutToLoad (eventTrack w)) 0 = some (eventOfWord w) := rfl
  have hload := tickVoice_loads (v := 0) (vc := voiceAboutToLoad (eventTrack w)) rfl (Nat.zero_le 1) hevent
  rw [hload]
  exact afterLoad_wait (show (1 : Half) ≠ 2 by decide) rfl (show (1 : Half) ≠ 0 by decide)

/-- The strobe placed with an event runs the tick pass that loads it. -/
theorem exec_invoke_sessionAboutToLoad (s : State) : ∃ u,
    exec .invoke { s with block := sessionAboutToLoad s.config (eventTrack w) s.block } = .next u ∧
    u.block.voice 0 = waitFor 1 (loadPitch (eventOfWord w).pitch (voiceAboutToLoad (eventTrack w))) := by
  have hone : ∀ v : VoiceId, v.val < (1 : Fin 5).val → v = 0 := fun v hv => Fin.ext (Nat.lt_one_iff.1 hv)
  obtain ⟨hlasts, -⟩ := tickPassTicksEveryActiveVoice
    { s with block := sessionAboutToLoad s.config (eventTrack w) s.block }
    (fun _ => waitFor 1 (loadPitch (eventOfWord w).pitch (voiceAboutToLoad (eventTrack w))))
    rfl (subcycles_ne_one s.config) (show (1 : Fin 5) ≠ 0 by decide) rfl
    (fun v hv => by rw [hone v hv]; exact tickVoice_voiceAboutToLoad w)
  have hactive : (sessionAboutToLoad s.config (eventTrack w) s.block).active 0 := Nat.one_pos
  obtain ⟨vs, hinvoke, hvs⟩ := hlasts ⟨0, hactive, show SeqState.playing ≠ .finished by decide⟩
  exact ⟨_, hinvoke, (hvs 0).trans (if_pos hactive)⟩

end

/-- Settles O9, by the width of the word. -/
theorem placedWordIsRunByTheNextStep : Obligations.PlacedWordIsRunByTheNextStep := by
  intro s w i
  refine ⟨?command, ?strobe, ?event⟩
  case command =>
    intro h
    have hplaced : s.withFetchWord 32 w =
        { s with input := commandSample (BitVec.ofNat 32 w) (Bindings.ofList []) :: s.input } := rfl
    rw [hplaced, step_command rfl (by simp [commandSample]) rfl, commandSample, afterCommand_alone,
      decodeTableWord_command h]
  case strobe =>
    intro h
    have hplaced : s.withFetchWord 8 w = { s with input := strobeSample (BitVec.ofNat 2 w) :: s.input } := rfl
    rw [hplaced, step_strobe rfl rfl (decodeTableWord_strobe h)]
  case event =>
    intro h
    have hplaced : s.withFetchWord 24 w = { s with
        input := strobeSample 0b01#2 :: s.input
        block := sessionAboutToLoad s.config (eventTrack (BitVec.ofNat 24 w)) s.block } := rfl
    obtain ⟨u, hinvoke, hu⟩ := exec_invoke_sessionAboutToLoad (BitVec.ofNat 24 w) s
    refine ⟨_, u, decodeTableWord_event h ▸ exec_decodeEvent 0 _ _, ?_, ?_⟩
    · rw [hplaced, step_strobe rfl rfl (decodeSV_invoke rfl rfl)]
      exact hinvoke
    · rw [hu, State.setVoice_block, Block.voice_setVoice_self, hplaced]
      rfl

end Sys2Proof.Machine
end

section
/-! PROOFS. A tick does not depend on the phase (42_oscillator.md R123): voices with the same sequencer tick alike. -/

namespace Sys2Proof.Machine

/-- A voice with another phase. -/
def withPhase (i : Half) (f : Byte) (vc : Voice) : Voice := { vc with phaseIndex := i, phaseFraction := f }

/-- Voices with the same sequencer registers differ in their phases alone. -/
theorem SameSequencer.eq_withPhase {a b : Voice} (h : SameSequencer a b) :
    a = withPhase a.phaseIndex a.phaseFraction b := by
  obtain ⟨h1, h2, h3, h4, h5, h6⟩ := h
  rw [withPhase, ← h1, ← h2, ← h3, ← h4, ← h5, ← h6]

theorem sameSequencer_withPhase (i : Half) (f : Byte) (vc : Voice) : SameSequencer (withPhase i f vc) vc :=
  ⟨rfl, rfl, rfl, rfl, rfl, rfl⟩

section
variable (v : VoiceId) (i : Half) (f : Byte)

theorem consumeLoop_withPhase (n : Nat) (vc : Voice) :
    consumeLoop v n (withPhase i f vc) = (consumeLoop v n vc).map (withPhase i f) := by
  induction n generalizing vc with
  | zero => rfl
  | succ n ih =>
    have hread : ∀ j, readEvent (withPhase i f vc) j = readEvent vc j := fun _ => rfl
    have hcursor : (withPhase i f vc).eventCursor = vc.eventCursor := rfl
    rw [consumeLoop, consumeLoop, hread, hcursor]
    cases readEvent vc vc.eventCursor with
    | none => rfl
    | some e =>
      have hload : loadPitch e.pitch (withPhase i f vc) = withPhase i f (loadPitch e.pitch vc) := rfl
      simp only [loadEvent_eq, hload]
      have hend : (withPhase i f (loadPitch e.pitch vc)).eventCursor =
          (withPhase i f (loadPitch e.pitch vc)).eventCount ↔
          (loadPitch e.pitch vc).eventCursor = (loadPitch e.pitch vc).eventCount := Iff.rfl
      have hdelay : readTrkd (withPhase i f (loadPitch e.pitch vc)) (withPhase i f (loadPitch e.pitch vc)).eventCursor =
          readTrkd (loadPitch e.pitch vc) (loadPitch e.pitch vc).eventCursor := rfl
      simp only [hend, hdelay]
      split
      · rfl
      · split
        · rfl
        · split
          · rfl
          · exact ih (waitFor _ (loadPitch e.pitch vc))

/-- A tick of a voice with another phase is the tick of the voice, with that phase. -/
theorem tickVoice_withPhase (vc : Voice) :
    tickVoice v (withPhase i f vc) = (tickVoice v vc).map (withPhase i f) := by
  have hsame : (withPhase i f vc).seqState = vc.seqState := rfl
  cases hstate : vc.seqState with
  | priming =>
    rw [tickVoice_priming v hstate, tickVoice_priming v (hsame.trans hstate)]
    by_cases hempty : vc.eventCount = 0
    · rw [primingTick_empty v hempty, primingTick_empty v (vc := withPhase i f vc) hempty]
      rfl
    · cases hd : readTrkd vc 0 with
      | none =>
        have hd' : readTrkd { vc with currentPitch := pause } 0 = none := hd
        have hd'' : readTrkd { withPhase i f vc with currentPitch := pause } 0 = none := hd
        have hempty' : (withPhase i f vc).eventCount ≠ 0 := hempty
        simp only [primingTick, hempty, hempty', hd', hd'', if_false]
        rfl
      | some d =>
        rw [primingTick_waits v hempty hd, primingTick_waits v (vc := withPhase i f vc) hempty hd]
        rfl
  | playing =>
    rw [tickVoice_playing v hstate, tickVoice_playing v (hsame.trans hstate), playingTick_eq, playingTick_eq]
    have hleft : (withPhase i f vc).remainingTicks = vc.remainingTicks := rfl
    rw [hleft]
    split
    · exact consumeLoop_withPhase v i f _ (waitFor 0 vc)
    · rfl
  | finished =>
    rw [tickVoice_finished v hstate, tickVoice_finished v (hsame.trans hstate)]
    rfl

end

/-- Voices with the same sequencer registers have them also after a tick. -/
theorem SameSequencer.tick {v : VoiceId} {a b a' : Voice} (h : SameSequencer a b) (htick : tickVoice v a = .ok a') :
    ∃ b', tickVoice v b = .ok b' ∧ SameSequencer a' b' := by
  rw [h.eq_withPhase, tickVoice_withPhase] at htick
  cases hb : tickVoice v b with
  | error e => rw [hb] at htick; cases htick
  | ok b' =>
    rw [hb] at htick
    cases htick
    exact ⟨b', rfl, sameSequencer_withPhase _ _ b'⟩

/-- Ticks keep a voice consistent (10_state.md R39 (d), (e)). -/
theorem ticks_consistent {v : VoiceId} {n : Nat} {vc vc' : Voice} (hc : VoiceConsistent vc)
    (h : ticks v n vc = .ok vc') : VoiceConsistent vc' := by
  induction n generalizing vc with
  | zero =>
    cases h
    exact hc
  | succ n ih =>
    rw [ticks] at h
    cases htick : tickVoice v vc with
    | error e => rw [htick] at h; cases h
    | ok vc1 =>
      rw [htick] at h
      exact ih (tickVoice_consistent hc htick) h

end Sys2Proof.Machine
end

section
/-! PROOFS. The timeline of a session (45_scheduler.md R165): the clock of sub-cycles, samples and tick passes in
numbers, the session as so many ticks leave it, and both after every strobe, by induction on the strobes. -/

namespace Sys2Proof.Machine

/-! ## The clock in numbers: `m` sub-cycles a sample, `p` samples a tick, `n` strobes -/

/-- The strobe behind the first `n` is a tick pass. -/
abbrev passDue (m p n : Nat) : Prop := 0 < n ∧ n % m = 0 ∧ n / m % p = 0

/-- The sample counter of a session behind `n` strobes (45_scheduler.md R165). -/
def counterAfter (m p n : Nat) : Nat := if passDue m p n then 0 else p - n / m % p

/-- The number of tick passes among the first `n` strobes. -/
def passesWithin (m p n : Nat) : Nat := (n - 1) / (p * m)

section
variable {m p n : Nat}

theorem counterAfter_of_due (h : passDue m p n) : counterAfter m p n = 0 := if_pos h

theorem counterAfter_of_not_due (h : ¬ passDue m p n) : counterAfter m p n = p - n / m % p := if_neg h

theorem counterAfter_eq_zero_iff (hp : 0 < p) : counterAfter m p n = 0 ↔ passDue m p n := by
  have hlt := Nat.mod_lt (n / m) hp
  refine ⟨fun hzero => by_contra fun hnot => ?_, counterAfter_of_due⟩
  rw [counterAfter_of_not_due hnot] at hzero
  omega

/-- The last strobe of a sample period takes one sample from the count. -/
theorem counterAfter_succ_of_last (hm : 2 ≤ m) (hp : 0 < p) (hlast : n % m + 1 = m) (hmod : (n + 1) % m = 0)
    (hdiv : (n + 1) / m = n / m + 1) : counterAfter m p (n + 1) + 1 = counterAfter m p n := by
  have hnot : ¬ passDue m p n := fun ⟨_, h, _⟩ => by omega
  have hdue : passDue m p (n + 1) ↔ (n / m + 1) % p = 0 := by simp [passDue, hmod, hdiv]
  rw [counterAfter_of_not_due hnot]
  obtain ⟨hq, hq', -⟩ | ⟨hq, hq', -⟩ := succ_div_mod_cases hp (n / m)
  · rw [counterAfter_of_due (hdue.2 hq')]
    omega
  · rw [counterAfter_of_not_due (mt hdue.1 (by omega)), hdiv, hq']
    omega

/-- Any other strobe reloads the count if it is a tick pass, and leaves it otherwise. -/
theorem counterAfter_succ_of_within (hmod : (n + 1) % m = n % m + 1) (hdiv : (n + 1) / m = n / m) :
    counterAfter m p (n + 1) = if passDue m p n then p else counterAfter m p n := by
  have hnot : ¬ passDue m p (n + 1) := fun ⟨_, h, _⟩ => by omega
  rw [counterAfter_of_not_due hnot, hdiv]
  split
  case isTrue hdue =>
    obtain ⟨-, -, hzero⟩ := hdue
    rw [hzero, Nat.sub_zero]
  case isFalse hdue => rw [counterAfter_of_not_due hdue]

/-- A tick pass is due behind every positive multiple of `p * m` strobes. -/
theorem passDue_iff_dvd : passDue m p n ↔ 0 < n ∧ p * m ∣ n := by
  rw [passDue, ← Nat.dvd_iff_mod_eq_zero, ← Nat.dvd_iff_mod_eq_zero, Nat.mul_comm]
  refine and_congr_right (fun _ => ⟨fun ⟨hm, hp⟩ => ?_, fun h => ?_⟩)
  · exact (Nat.dvd_div_iff_mul_dvd hm).1 hp
  · have hm : m ∣ n := dvd_of_mul_right_dvd h
    exact ⟨hm, (Nat.dvd_div_iff_mul_dvd hm).2 h⟩

theorem passesWithin_succ :
    passesWithin m p (n + 1) = passesWithin m p n + if passDue m p n then 1 else 0 := by
  cases n with
  | zero => simp [passesWithin, passDue]
  | succ n => simp [passesWithin, passDue_iff_dvd, Nat.succ_div]

end

/-! ## A session as so many ticks leave it -/

/-- Voice `v` of a session with these tracks has the sequencer that `k` ticks of its bound voice leave. -/
abbrev TickedTo (tracks : List Track) (k : Nat) (v : VoiceId) (vc : Voice) : Prop :=
  ∃ vc', ticks v k (boundVoice (trackOperand tracks v)) = .ok vc' ∧ SameSequencer vc vc'

/-- Where a session of `n` voices stands after `k` tick passes: it lasts, with a voice still to finish, or it is over,
with every voice Finished (45_scheduler.md R164). -/
inductive SessionAt (tracks : List Track) (n : Fin 5) (spt : Half) (k : Nat) (b : Block) : Prop where
  | lasts (hcount : b.trackCount = n) (hspt : b.samplesPerTick = spt)
      (hticked : ∀ v : VoiceId, v.val < n.val → TickedTo tracks k v (b.voice v))
      (hunfinished : ∃ v : VoiceId, v.val < n.val ∧ (b.voice v).seqState ≠ .finished)
  | ended (hcount : b.trackCount = 0)
      (hfinished : ∀ v : VoiceId, v.val < n.val → ∃ vc,
        ticks v k (boundVoice (trackOperand tracks v)) = .ok vc ∧ vc.seqState = .finished)

section
variable {tracks : List Track} {n : Fin 5} {spt : Half} {k : Nat} {b b' : Block}

/-- The session lasts exactly as long as some voice is not Finished after that many ticks. -/
theorem SessionAt.lasts_iff (hn : n ≠ 0) (h : SessionAt tracks n spt k b) :
    b.trackCount ≠ 0 ↔ ∃ (v : VoiceId) (vc : Voice), v.val < n.val ∧
      ticks v k (boundVoice (trackOperand tracks v)) = .ok vc ∧ vc.seqState ≠ .finished := by
  cases h with
  | lasts hcount _ hticked hunfinished =>
    obtain ⟨v, hv, hne⟩ := hunfinished
    obtain ⟨vc, hrun, hstate, -⟩ := hticked v hv
    exact ⟨fun _ => ⟨v, vc, hv, hrun, hstate ▸ hne⟩, fun _ => hcount ▸ hn⟩
  | ended hcount hfinished =>
    refine ⟨fun hsession => absurd hcount hsession, fun ⟨v, vc, hv, hrun, hne⟩ => ?_⟩
    obtain ⟨vc', hrun', hfin⟩ := hfinished v hv
    exact absurd (Except.ok.inj (hrun'.symm.trans hrun) ▸ hfin) hne

/-- Every active voice of such a session can be ticked. -/
theorem SessionAt.tick_completes (h : SessionAt tracks n spt k b) (v : VoiceId) (hv : b.active v) :
    ∃ vc, tickVoice v (b.voice v) = .ok vc := by
  cases h with
  | lasts hcount _ hticked _ =>
    rw [Block.active, hcount] at hv
    obtain ⟨vc, hrun, hsame⟩ := hticked v hv
    exact tickVoice_completes v (hsame.voiceConsistent (ticks_consistent (voiceConsistent_boundVoice _) hrun))
  | ended hcount => exact absurd hv (not_active_of_no_session hcount v)

theorem SessionAt.samplesPerTick_eq (h : SessionAt tracks n spt k b) (hsession : b.trackCount ≠ 0) :
    b.samplesPerTick = spt := by
  cases h with
  | lasts _ hspt => exact hspt
  | ended hcount => exact absurd hcount hsession

/-- A move that keeps every sequencer and the session's registers keeps its place. -/
theorem SessionAt.of_sequencers (h : SessionAt tracks n spt k b) (hcount' : b'.trackCount = b.trackCount)
    (hspt' : b'.samplesPerTick = b.samplesPerTick) (hsame : ∀ v, SameSequencer (b'.voice v) (b.voice v)) :
    SessionAt tracks n spt k b' := by
  cases h with
  | lasts hcount hspt hticked hunfinished =>
    obtain ⟨w, hw, hne⟩ := hunfinished
    refine .lasts (hcount'.trans hcount) (hspt'.trans hspt) (fun v hv => ?_) ⟨w, hw, (hsame w).1 ▸ hne⟩
    obtain ⟨vc, hrun, hvc⟩ := hticked v hv
    exact ⟨vc, hrun, (hsame v).trans hvc⟩
  | ended hcount hfinished => exact .ended (hcount'.trans hcount) hfinished

/-- A session that is over stays over: a Finished voice does not change in a tick. -/
theorem SessionAt.succ_of_ended (h : SessionAt tracks n spt k b) (hn : n ≠ 0) (hzero : b.trackCount = 0) :
    SessionAt tracks n spt (k + 1) b := by
  cases h with
  | lasts hcount => exact absurd (hcount.symm.trans hzero) hn
  | ended hcount hfinished =>
    refine .ended hcount (fun v hv => ?_)
    obtain ⟨vc, hrun, hfin⟩ := hfinished v hv
    exact ⟨vc, ticks_succ hrun (tickVoice_finished v hfin), hfin⟩

/-- A tick pass of a lasting session takes it to its next place. -/
theorem SessionAt.succ_of_pass {c : Config} (h : SessionAt tracks n spt k b) (hmove : InvokeMove c b b')
    (henabled : b.enabled = true) (hne : b.subCycleCounter ≠ 1) (hsession : b.trackCount ≠ 0)
    (hdue : b.sampleCounter = 0) : SessionAt tracks n spt (k + 1) b' := by
  cases h with
  | ended hcount => exact absurd hcount hsession
  | lasts hcount hspt hticked hunfinished =>
    have hnext : ∀ v vc, v.val < n.val → tickVoice v (b.voice v) = .ok vc → TickedTo tracks (k + 1) v vc := by
      intro v vc hv htick
      obtain ⟨vc0, hrun, hsame⟩ := hticked v hv
      obtain ⟨vc1, htick1, hsame1⟩ := hsame.tick htick
      exact ⟨vc1, ticks_succ hrun htick1, hsame1⟩
    cases hmove with
    | disabled hdis => exact absurd (henabled.symm.trans hdis) (by decide)
    | sample _ hone => exact absurd hone hne
    | count _ _ hno => exact absurd hdue (hno.resolve_left hsession)
    | tickLasts _ _ _ _ vs htick _ hleft =>
      simp only [Block.active, hcount] at htick hleft
      exact .lasts hcount hspt (fun v hv => hnext v _ hv (htick v hv)) hleft
    | tickEnds _ _ _ _ hfin =>
      simp only [Block.active, hcount] at hfin
      refine .ended rfl (fun v hv => ?_)
      obtain ⟨vc, htick, hstate⟩ := hfin v hv
      obtain ⟨vc1, hrun, hsame⟩ := hnext v vc hv htick
      exact ⟨vc1, hrun, hsame.1 ▸ hstate⟩

end

/-- What a tick pass leaves in the counters (45_scheduler.md R160, R163). -/
theorem InvokeMove.counters_of_pass {c : Config} {b b' : Block} (hmove : InvokeMove c b b')
    (henabled : b.enabled = true) (hne : b.subCycleCounter ≠ 1) (hsession : b.trackCount ≠ 0)
    (hdue : b.sampleCounter = 0) :
    b'.subCycleCounter = b.subCycleCounter - 1 ∧ (b'.trackCount ≠ 0 → b'.sampleCounter = b.samplesPerTick) := by
  cases hmove with
  | disabled hdis => exact absurd (henabled.symm.trans hdis) (by decide)
  | sample _ hone => exact absurd hone hne
  | count _ _ hno => exact absurd hdue (hno.resolve_left hsession)
  | tickLasts => exact ⟨rfl, fun _ => rfl⟩
  | tickEnds => exact ⟨rfl, fun h => absurd rfl h⟩

/-! ## The state after every strobe -/

/-- The state `n` strobes after the `PLAY` of a session that found `writes` bytes written. -/
structure TimelineAt (c : Config) (tracks : List Track) (count : Fin 5) (spt : Half) (writes n : Nat) (t : State) :
    Prop where
  config : t.config = c
  enabled : t.block.enabled = true
  sub : t.block.subCycleCounter.toNat + n % c.subcycles.toNat = c.subcycles.toNat
  out : t.out.length = writes + n / c.subcycles.toNat
  session : SessionAt tracks count spt (passesWithin c.subcycles.toNat spt.toNat n) t.block
  counter : t.block.trackCount ≠ 0 → t.block.sampleCounter.toNat = counterAfter c.subcycles.toNat spt.toNat n

section
variable {c : Config} {tracks : List Track} {count : Fin 5} {spt : Half} {writes n : Nat} {t : State}

/-- The registers `PLAY` leaves are the first of the timeline. -/
theorem timelineAt_zero {s : State} (hcount : count ≠ 0) (henabled : s.block.enabled = true) :
    TimelineAt s.config tracks count spt s.out.length 0
      { s with block := startSession s.config tracks count spt s.block } where
  config := rfl
  enabled := henabled
  sub := by rw [Nat.zero_mod]; rfl
  out := by rw [Nat.zero_div]; rfl
  session := by
    have hvoice := startSession_voice s.config tracks count spt s.block
    have hfirst : (0 : VoiceId).val < count.val := Fin.pos_iff_ne_zero.2 hcount
    have hzero : passesWithin s.config.subcycles.toNat spt.toNat 0 = 0 := Nat.zero_div _
    rw [hzero]
    refine .lasts rfl rfl (fun v hv => ⟨_, rfl, ?_⟩) ⟨0, hfirst, ?_⟩
    · rw [hvoice, if_pos hv]
      exact .refl _
    · rw [hvoice, if_pos hfirst]
      simp
  counter := fun _ => by
    have hnot : ¬ passDue s.config.subcycles.toNat spt.toNat 0 := fun h => absurd h.1 (Nat.lt_irrefl 0)
    rw [counterAfter_of_not_due hnot, Nat.zero_div, Nat.zero_mod, Nat.sub_zero]
    rfl

/-- The last strobe of a sample period is a sample step. -/
theorem TimelineAt.sample (h : TimelineAt c tracks count spt writes n t) (hspt : 1 ≤ spt.toNat)
    (hlast : n % c.subcycles.toNat + 1 = c.subcycles.toNat) (hmod : (n + 1) % c.subcycles.toNat = 0)
    (hdiv : (n + 1) / c.subcycles.toNat = n / c.subcycles.toNat + 1) :
    ∃ u, exec .invoke t = .next u ∧ TimelineAt c tracks count spt writes (n + 1) u := by
  obtain ⟨rfl, henabled, hsub, hout, hsession, hcounter⟩ := h
  have htwo := two_le_subcycles t.config
  have hone : t.block.subCycleCounter = 1 := BitVec.eq_of_toNat_eq (show _ = 1 by omega)
  have hnot : ¬ passDue t.config.subcycles.toNat spt.toNat n := fun ⟨_, h, _⟩ => by omega
  refine ⟨_, exec_invoke_sample henabled hone, rfl, ?_, ?_, ?_, ?_, fun hlasts => ?_⟩
  · rw [sampleStep_enabled, henabled]
  · rw [hmod, sampleStep_subCycleCounter, Nat.add_zero]
  · rw [hdiv, List.length_append, hout]
    rfl
  · rw [passesWithin_succ, if_neg hnot, Nat.add_zero]
    exact hsession.of_sequencers (sampleStep_trackCount _ _) (sampleStep_samplesPerTick _ _)
      (sampleStep_sequencer _ _)
  · rw [sampleStep_trackCount] at hlasts
    have hstep := counterAfter_succ_of_last htwo hspt hlast hmod hdiv
    have hbefore := hcounter hlasts
    rw [sampleStep_sampleCounter, if_neg hlasts]
    bv_omega

/-- Any other strobe is a tick pass if one is due and the session lasts, and a bare sub-cycle otherwise. -/
theorem TimelineAt.within (h : TimelineAt c tracks count spt writes n t) (hcount : count ≠ 0) (hspt : 1 ≤ spt.toNat)
    (hwithin : n % c.subcycles.toNat + 1 < c.subcycles.toNat)
    (hmod : (n + 1) % c.subcycles.toNat = n % c.subcycles.toNat + 1)
    (hdiv : (n + 1) / c.subcycles.toNat = n / c.subcycles.toNat) :
    ∃ u, exec .invoke t = .next u ∧ TimelineAt c tracks count spt writes (n + 1) u := by
  obtain ⟨rfl, henabled, hsub, hout, hsession, hcounter⟩ := h
  have hne : t.block.subCycleCounter ≠ 1 := fun hone => by
    have hone' : t.block.subCycleCounter.toNat = 1 := congrArg BitVec.toNat hone
    omega
  have hpred : (t.block.subCycleCounter - 1).toNat + (n + 1) % t.config.subcycles.toNat =
      t.config.subcycles.toNat := by
    rw [hmod]
    bv_omega
  have hnext := counterAfter_succ_of_within (p := spt.toNat) hmod hdiv
  by_cases hpass : t.block.trackCount ≠ 0 ∧ t.block.sampleCounter = 0
  case pos =>
    obtain ⟨hlasts, hzero⟩ := hpass
    have hdue : passDue t.config.subcycles.toNat spt.toNat n :=
      (counterAfter_eq_zero_iff hspt).1 ((hcounter hlasts).symm.trans (congrArg BitVec.toNat hzero))
    obtain ⟨b, hb⟩ := tickPass_completes (b := { t.block with subCycleCounter := t.block.subCycleCounter - 1 })
      hsession.tick_completes
    have hinvoke := exec_invoke_tickPass henabled hne hlasts hzero hb
    have hmove := exec_invoke_move hinvoke
    obtain ⟨hsub', hreload⟩ := hmove.counters_of_pass henabled hne hlasts hzero
    refine ⟨_, hinvoke, rfl, hmove.control.1.trans henabled, ?_, by rw [hdiv]; exact hout, ?_, fun hlasts' => ?_⟩
    · rw [hsub', hpred]
    · rw [passesWithin_succ, if_pos hdue]
      exact hsession.succ_of_pass hmove henabled hne hlasts hzero
    · rw [hreload hlasts', hsession.samplesPerTick_eq hlasts, hnext, if_pos hdue]
  case neg =>
    have hno : t.block.trackCount = 0 ∨ t.block.sampleCounter ≠ 0 := by tauto
    refine ⟨_, exec_invoke_count henabled hne hno, rfl, henabled, hpred, by rw [hdiv]; exact hout, ?_,
      fun hlasts => ?_⟩
    · refine SessionAt.of_sequencers (b := t.block) ?_ rfl rfl (fun v => .refl _)
      rw [passesWithin_succ]
      split
      case isTrue hdue =>
        refine hsession.succ_of_ended hcount (by_contra fun hlasts => hno.resolve_left hlasts ?_)
        exact BitVec.eq_of_toNat_eq ((hcounter hlasts).trans ((counterAfter_eq_zero_iff hspt).2 hdue))
      case isFalse => exact hsession
    · have hnot : ¬ passDue t.config.subcycles.toNat spt.toNat n := fun hdue =>
        hno.resolve_left hlasts
          (BitVec.eq_of_toNat_eq ((hcounter hlasts).trans ((counterAfter_eq_zero_iff hspt).2 hdue)))
      rw [hnext, if_neg hnot]
      exact hcounter hlasts

/-- Every strobe takes the state to its next place on the timeline. -/
theorem TimelineAt.succ (h : TimelineAt c tracks count spt writes n t) (hcount : count ≠ 0) (hspt : 1 ≤ spt.toNat) :
    ∃ u, exec .invoke t = .next u ∧ TimelineAt c tracks count spt writes (n + 1) u := by
  have hpos : 0 < c.subcycles.toNat := Nat.zero_lt_of_lt (two_le_subcycles c)
  obtain ⟨hlast, hmod, hdiv⟩ | ⟨hwithin, hmod, hdiv⟩ := succ_div_mod_cases hpos n
  · exact h.sample hspt hlast hmod hdiv
  · exact h.within hcount hspt hwithin hmod hdiv

end

/-- The strobes of a session all complete, and take it along its timeline. -/
theorem invokes_timeline {s : State} (tracks : List Track) {count : Fin 5} {spt : Half} (hcount : count ≠ 0)
    (hspt : 1 ≤ spt.toNat) (henabled : s.block.enabled = true) (n : Nat) :
    ∃ t, invokes n { s with block := startSession s.config tracks count spt s.block } = .next t ∧
      TimelineAt s.config tracks count spt s.out.length n t := by
  induction n with
  | zero => exact ⟨_, rfl, timelineAt_zero hcount henabled⟩
  | succ n ih =>
    obtain ⟨t, hrun, hat⟩ := ih
    obtain ⟨u, hinvoke, hat'⟩ := hat.succ hcount hspt
    exact ⟨u, invokes_succ hrun hinvoke, hat'⟩

/-- Settles O37, from the place on the timeline after `n` strobes. -/
theorem sessionTimeline : Obligations.SessionTimeline := by
  intro s s0 tracks count spt n henabled hlo hhi hspt hplay
  rw [exec_play, playBlock_accepted s.config tracks spt henabled hlo hhi] at hplay
  cases hplay
  have hcount : (⟨count.toNat, Nat.lt_succ_of_le hhi⟩ : Fin 5) ≠ 0 := fun hz =>
    absurd (congrArg Fin.val hz) (Nat.ne_of_gt hlo)
  obtain ⟨t, hrun, hat⟩ := invokes_timeline tracks hcount hspt henabled n
  refine ⟨t, hrun, Nat.eq_sub_of_add_eq hat.sub, hat.out, hat.session.lasts_iff hcount, fun hlasts => ?_⟩
  refine ⟨hat.counter hlasts, fun v hv => ?_⟩
  cases hat.session with
  | lasts _ _ hticked _ => exact hticked v hv
  | ended hzero => exact absurd hzero hlasts

end Sys2Proof.Machine
end
